-- ==== Sys2Proof/Word.lean ====
section
/-! DEFINITION. The word types of the engine: the byte of the message and digest (R10) and the 64-bit
register word of the host interface (R50, R52). All words are unsigned (R9). -/

namespace Sys2Proof

/-- One byte of a byte sequence (R10). -/
abbrev Byte := BitVec 8

/-- One 64-bit register of the window (R52), also the command word (R70). -/
abbrev Word64 := BitVec 64

end Sys2Proof
end

