-- ==== Sys2Proof/Config.lean ====
section
/-! DEFINITION. What the spec leaves OPEN or free, as constants with no body: nothing can be proved of their values.
The third OPEN parameter, `N_ENGINES` (R8), is the number of instances a `State` holds (`State.system`). -/

namespace Sys2Proof

/-- `B2CE_BASE` of instance `k` (R50, D4): where the platform puts its window. OPEN; only `Config.hostAddress` uses it. -/
opaque Config.b2ceBase : Nat → Nat

/-- `LAT(cmd)` (R221, D26): the cycles from the CMD write of this word until BUSY returns to 0. OPEN; a natural
number, so finite (R222); no rule of the spec and no definition of the model reads it. -/
opaque Config.latency : Word64 → Nat

/-- FREE VALUE (R216; log entry 5). The `n`-th value drawn by a read of STATUS, T0, T1 or DOUTk performed while BUSY = 1,
which the spec leaves unspecified ("a free draw, never a fixed value"). -/
opaque Config.freeRead : Nat → Word64

/-- The host address of byte offset `off` of instance `k`'s window (R50, R196). -/
def Config.hostAddress (k : Nat) (off : BitVec 7) : Nat := Config.b2ceBase k + off.toNat

end Sys2Proof
end

