-- ==== Sys2Proof/Syntax.lean ====
section
/-! DEFINITION. The commands of spec/opcode_table.json, one constructor per row, with their operands as R72, R73 and R74
assemble them. -/

namespace Sys2Proof

/-- The variant tag (R3, R23): `blake2b` is 0 and `blake2s` is 1. -/
inductive Variant where
  | blake2b
  | blake2s
  deriving DecidableEq, Repr

/-- The commands (R75). A byte count is a natural number; `Instr.wellFormed` says that it fits its field. -/
inductive Instr where
  /-- INIT, format I: create a hasher context of this variant and digest length in bytes (R72, R142). -/
  | init (variant : Variant) (outlen : Nat)
  /-- UPDATE, format U: absorb this many bytes of the DIN latch (R73, R143). -/
  | update (nbytes : Nat)
  /-- FINAL, format F: pad, compress the last block and produce the digest (R74, R144). -/
  | final
  deriving DecidableEq, Repr

end Sys2Proof
end

