-- ==== Sys2Proof/WellFormed.lean ====
section
/-! DEFINITION. Which terms of `Instr` are commands: those whose operands fit the fields of their format (R71).
A well-formed command may still carry a value that the command rejects with INVALID_PARAMETER (R77). -/

namespace Sys2Proof

/-- The operands fit their fields: OUTLEN is 7 bits (R72) and NBYTES is 4 bits (R73). -/
def Instr.wellFormed : Instr → Bool
  | .init _ outlen => decide (outlen < 128)
  | .update nbytes => decide (nbytes < 16)
  | .final => true

end Sys2Proof
end

