-- ==== Sys2Proof/Decode.lean ====
section
/-! DEFINITION. The decoder of the 64-bit command word, total over all words (R78), and the encoder (R71). -/

namespace Sys2Proof

/-- One row of the opcode table (R75): a word selects it exactly when `word &&& mask = pattern`. -/
structure OpcodeRow where
  mask : Word64
  pattern : Word64
  deriving DecidableEq, Repr

/-- R75: INIT. -/
def rowInit : OpcodeRow := ⟨0xFFFFFFFFFFFF80EF#64, 0x0000000000000001#64⟩

/-- R75: UPDATE. -/
def rowUpdate : OpcodeRow := ⟨0xFFFFFFFFFFFFF0FF#64, 0x0000000000000002#64⟩

/-- R75: FINAL. -/
def rowFinal : OpcodeRow := ⟨0xFFFFFFFFFFFFFFFF#64, 0x0000000000000003#64⟩

/-- The word `c` belongs to the row (R75). -/
def OpcodeRow.selects (r : OpcodeRow) (c : Word64) : Bool := c &&& r.mask == r.pattern

/-- Why a word is Illegal, the two clauses of R76. The engine records ILLEGAL_COMMAND for both (R189). -/
inductive IllegalReason where
  /-- OP is 0x0 or 0x4 to 0xF. -/
  | reservedOpcode
  /-- OP is 0x1, 0x2 or 0x3 and a bit that the format fixes to 0 is 1. -/
  | reservedBits
  deriving DecidableEq, Repr

/-- What a command word decodes to (R78). -/
inductive Decoded where
  | command (i : Instr)
  | illegal (reason : IllegalReason)
  deriving DecidableEq, Repr

/-- `OP = c[3:0]` (R71). -/
def opField (c : Word64) : BitVec 4 := c.extractLsb' 0 4

/-- `VARIANT = c[4]` of format I (R72, R3). -/
def variantField (c : Word64) : Variant := if c.getLsbD 4 then .blake2s else .blake2b

/-- `OUTLEN = c[14:8]` of format I, unsigned and not scaled (R72). -/
def outlenField (c : Word64) : Nat := (c.extractLsb' 8 7).toNat

/-- `NBYTES = c[11:8]` of format U (R73). -/
def nbytesField (c : Word64) : Nat := (c.extractLsb' 8 4).toNat

/-- Which clause of R76 an illegal word falls under. -/
def illegalReason (c : Word64) : IllegalReason :=
  if opField c = 1#4 ∨ opField c = 2#4 ∨ opField c = 3#4 then .reservedBits else .reservedOpcode

/-- R78: the decoder, total over all `2^64` words. -/
def decode (c : Word64) : Decoded :=
  if rowInit.selects c then .command (.init (variantField c) (outlenField c))
  else if rowUpdate.selects c then .command (.update (nbytesField c))
  else if rowFinal.selects c then .command .final
  else .illegal (illegalReason c)

/-- The variant tag as the bit VARIANT (R3, R72). -/
def Variant.tag : Variant → BitVec 1
  | .blake2b => 0#1
  | .blake2s => 1#1

/-- R71, R79: the command word of a command, `(nn << 8) | 0x01`, `(nn << 8) | 0x11`, `(n << 8) | 0x02` and `0x03`.
DESIGN CHOICE (log entry 16): R79 gives no range for `nn` and `n`; the formula is taken for every number, cut to 64 bits, so
an operand too large for its field (`Instr.wellFormed`) runs into bits that R71 fixes to 0 and the word is Illegal (R76). -/
def encode : Instr → Word64
  | .init v outlen => (BitVec.ofNat 64 outlen <<< 8) ||| (v.tag.setWidth 64 <<< 4) ||| 0x1#64
  | .update nbytes => (BitVec.ofNat 64 nbytes <<< 8) ||| 0x2#64
  | .final => 0x3#64

/-- The instruction the decoder reads from a word numbered as spec/opcode_table.json numbers it: one 64-bit word (R70),
of which the table gives the low `nbits` bits and every other bit is 0. -/
def decodeTableWord (nbits w : Nat) : Option Instr :=
  match decode (BitVec.ofNat 64 (w % 2 ^ nbits)) with
  | .command i => some i
  | .illegal _ => none

end Sys2Proof
end

