-- ==== Sys2Proof/Machine/State.lean ====
section
/-! DEFINITION. The state of the machine as plain data: the hasher context of every engine instance (R22), the host's
pending accesses and the values they returned (R64), with the reset state (R41) and the reasons a step can stop. -/

namespace Sys2Proof.Machine

/-- PHASE, the state of the digest state machine (R29); the value 3 is never held, so it has no constructor. -/
inductive Phase where
  | idle
  | active
  | finalized
  deriving DecidableEq, Repr

/-- The codes STATUS.ERR can hold (R181); 5 to 7 are never held, so they have no constructor. -/
inductive ErrCode where
  | none
  | invalidParameter
  | invalidState
  | illegalCommand
  | busyViolation
  deriving DecidableEq, Repr

/-- One engine instance: its hasher context, "and nothing else is architectural" (R22). -/
structure Engine where
  /-- `PHASE` (R29). -/
  phase : Phase
  /-- `VARIANT` (R23). -/
  variant : Variant
  /-- `OUTLEN`, the digest length `nn` in bytes (R24). -/
  outlen : BitVec 7
  /-- `h[0..7]` (R25), in 64-bit containers whose bits 63:32 stay zero for BLAKE2s (R42). -/
  h : Vector Word64 8
  /-- `t`, the byte counter (R26), kept below `2^64` for BLAKE2s (R42). -/
  t : BitVec 128
  /-- `B`, the message buffer: only its `|B|` bytes exist (R27). -/
  buf : List Byte
  /-- `ERR`, the first error since the last reset or successful INIT (R31). -/
  err : ErrCode
  /-- `BUSY` (R32): no step of the atomic model sets it (log entry 4). -/
  busy : Bool
  /-- `DIN`, the data latch (R33). -/
  din : Word64
  deriving DecidableEq, Repr

/-- R41: the reset value of every state element. -/
def Engine.reset : Engine where
  phase := .idle
  variant := .blake2b
  outlen := 0#7
  h := #v[0#64, 0#64, 0#64, 0#64, 0#64, 0#64, 0#64, 0#64]
  t := 0#128
  buf := []
  err := .none
  busy := false
  din := 0#64

/-- The width of a host access in bits (R52). -/
inductive AccessWidth where
  | w8
  | w16
  | w32
  | w64
  deriving DecidableEq, Repr

/-- What the outside world does to the engines: a host access to the window of instance `k` at a 7-bit byte offset
(R50, R11), or the platform's reset of instance `k` (R210). -/
inductive HostEvent where
  /-- `MemRead(off, width)` on instance `k`. -/
  | read (k : Nat) (off : BitVec 7) (width : AccessWidth)
  /-- `MemWrite(off, width, val)` on instance `k`. -/
  | write (k : Nat) (off : BitVec 7) (width : AccessWidth) (val : Word64)
  /-- The platform asserts the reset of instance `k`, the only asynchronous event (R210). -/
  | reset (k : Nat)
  deriving DecidableEq, Repr

/-- The instance an event acts on: instances are identified by their windows alone (R197). -/
def HostEvent.target : HostEvent → Nat
  | .read k _ _ => k
  | .write k _ _ _ => k
  | .reset k => k

/-- The system: `N_ENGINES` instances (R8, R197), which share no mutable state (R58), and the host's side of the
interface (R64). The instances in order are `before ++ engine :: after`; `engine` is the one the event in progress acts on
(log entry 2), so `N_ENGINES` is at least 1 by construction. -/
structure State where
  /-- The instances below `engine`, the first being instance 0. -/
  before : List Engine
  /-- The instance that the event in progress, or the last one, acts on. -/
  engine : Engine
  /-- The instances above `engine`. -/
  after : List Engine
  /-- The host's accesses and the platform's resets not yet performed, in the order issued (R57; log entry 1). -/
  requests : List HostEvent
  /-- The values the host's reads have returned, oldest first (R64; log entry 1). -/
  replies : List Word64
  /-- The MODEL's counter of free values drawn (log entry 5); not state of the spec. -/
  draws : Nat
  deriving DecidableEq, Repr

/-- `N_ENGINES = n + 1` instances right after reset (R8, R41), with no host access pending. -/
def State.system (n : Nat) : State where
  before := []
  engine := Engine.reset
  after := List.replicate n Engine.reset
  requests := []
  replies := []
  draws := 0

/-- The machine right after reset: one instance (log entry 3), every state element as R41 gives it. -/
def State.reset : State := State.system 0

/-- Faults. The engine has no trap and never hangs (R180, R222): an error of a command is a code in STATUS.ERR and a next
state. The one fault is the system's. -/
inductive Fault where
  /-- Raised by `step` for an event on an instance that does not exist: the host addressed no window of the system
  (R50, R197; log entry 6). SAFE: the run has no continuation in the model. -/
  | noSuchInstance
  deriving DecidableEq, Repr

/-- Refusals: a step without a meaning. -/
inductive Refusal where
  /-- Raised by `exec` for an instruction that has no meaning yet, by its mnemonic. SAFE. No arm raises it. -/
  | notModelled (mnemonic : String)
  /-- Raised by `step` for a host access that is not 64 bits wide or not at a multiple of 8: "A model refuses it" (R52).
  SAFE: toward unprovable (D5). -/
  | undefinedAccess
  deriving DecidableEq, Repr

/-- The outcome of one step of this machine. -/
abbrev Outcome := Host.Outcome State Fault Refusal

end Sys2Proof.Machine
end

