-- ==== Sys2Proof/Machine/Tables.lean ====
section
/-! DEFINITION. The constants of the two variants (R7, R101 to R104): built in, written by no command and untouched by
reset (R43). -/

namespace Sys2Proof

/-- `w`, the word width in bits (R7). -/
def Variant.wordBits : Variant → Nat
  | .blake2b => 64
  | .blake2s => 32

/-- `bs`, the block size in bytes (R7). -/
def Variant.blockBytes : Variant → Nat
  | .blake2b => 128
  | .blake2s => 64

/-- `NN_MAX`, the maximum digest length in bytes (R7). -/
def Variant.nnMax : Variant → Nat
  | .blake2b => 64
  | .blake2s => 32

end Sys2Proof

namespace Sys2Proof.Machine

/-- The constants in which the variants differ (R113): the IV, the round count and the rotation amounts R1 to R4. -/
structure Params (w : Nat) where
  iv : Vector (BitVec w) 8
  rounds : Nat
  r1 : Nat
  r2 : Nat
  r3 : Nat
  r4 : Nat
  deriving DecidableEq, Repr

/-- BLAKE2b: IV_b (R101), 12 rounds (R104), rotations (32, 24, 16, 63) (R103). -/
def paramsB : Params 64 where
  iv := #v[0x6A09E667F3BCC908#64, 0xBB67AE8584CAA73B#64, 0x3C6EF372FE94F82B#64, 0xA54FF53A5F1D36F1#64,
    0x510E527FADE682D1#64, 0x9B05688C2B3E6C1F#64, 0x1F83D9ABFB41BD6B#64, 0x5BE0CD19137E2179#64]
  rounds := 12
  r1 := 32
  r2 := 24
  r3 := 16
  r4 := 63

/-- BLAKE2s: IV_s (R101), 10 rounds (R104), rotations (16, 12, 8, 7) (R103). -/
def paramsS : Params 32 where
  iv := #v[0x6A09E667#32, 0xBB67AE85#32, 0x3C6EF372#32, 0xA54FF53A#32,
    0x510E527F#32, 0x9B05688C#32, 0x1F83D9AB#32, 0x5BE0CD19#32]
  rounds := 10
  r1 := 16
  r2 := 12
  r3 := 8
  r4 := 7

/-- The constants that the variant tag selects (R7). -/
def params : (v : Variant) → Params v.wordBits
  | .blake2b => paramsB
  | .blake2s => paramsS

/-- SIGMA, the message schedule, common to both variants (R102, R113). -/
def sigma : Vector (Vector (Fin 16) 16) 10 := #v[
  #v[0, 1, 2, 3, 4, 5, 6, 7, 8, 9, 10, 11, 12, 13, 14, 15],
  #v[14, 10, 4, 8, 9, 15, 13, 6, 1, 12, 0, 2, 11, 7, 5, 3],
  #v[11, 8, 12, 0, 5, 2, 15, 13, 10, 14, 3, 6, 7, 1, 9, 4],
  #v[7, 9, 3, 1, 13, 12, 11, 14, 2, 6, 5, 10, 4, 0, 15, 8],
  #v[9, 0, 5, 7, 2, 4, 10, 15, 14, 1, 11, 12, 6, 8, 3, 13],
  #v[2, 12, 6, 10, 0, 11, 8, 3, 4, 13, 7, 5, 15, 14, 1, 9],
  #v[12, 5, 1, 15, 14, 13, 4, 10, 0, 7, 6, 3, 9, 2, 8, 11],
  #v[13, 11, 7, 14, 12, 1, 3, 9, 5, 0, 15, 4, 8, 6, 2, 10],
  #v[6, 15, 14, 9, 11, 3, 0, 8, 12, 2, 13, 7, 1, 4, 10, 5],
  #v[10, 2, 8, 4, 7, 6, 1, 5, 15, 11, 9, 14, 3, 12, 13, 0]]

/-- The schedule row of round `r`, `SIGMA[r mod 10]` (R104). -/
def sigmaRow (r : Nat) : Vector (Fin 16) 16 := sigma[r % 10]'(Nat.mod_lt r (by decide))

/-- `P0(nn) = 0x01010000 | (kk << 8) | nn` with key length kk = 0 (R141). -/
def paramWord (nn : Nat) : BitVec 32 := 0x01010000#32 ||| (0#32 <<< 8) ||| BitVec.ofNat 32 nn

end Sys2Proof.Machine
end

