-- ==== Sys2Proof/Machine/Operands.lean ====
section
/-! DEFINITION. Byte order and operand forms: little-endian words (R10, R55), the bytes UPDATE takes from DIN (R73), zero
padding (R144), and the operand values a command accepts (R77). -/

namespace Sys2Proof.Machine

/-- The little-endian word of a byte sequence (R10): byte `j` is bits `8j+7` down to `8j`. -/
def leWord (w : Nat) : List Byte → BitVec w
  | [] => 0#w
  | b :: bs => b.setWidth w ||| (leWord w bs <<< 8)

/-- `LE_w(B, k)` (R10): the `w`-bit little-endian word `k` of `B`. -/
def leWordAt (w : Nat) (B : List Byte) (k : Nat) : BitVec w :=
  leWord w ((B.drop (k * (w / 8))).take (w / 8))

/-- The first `n` bytes of a word in little-endian order; `LEbytes_w` (R10) is the case `n = w / 8`. -/
def leBytes {w : Nat} (n : Nat) (x : BitVec w) : List Byte :=
  (List.range n).map fun j => x.extractLsb' (8 * j) 8

/-- The operand bytes of UPDATE: `DIN[8i+7:8i]` for i = 0 to n-1, in that order (R73, R143). -/
def dinBytes (n : Nat) (din : Word64) : List Byte := leBytes n din

/-- `zeros(n)` (R10). -/
def zeros (n : Nat) : List Byte := List.replicate n 0#8

/-- `B ++ zeros(size - |B|)`: the zero padding of FINAL (R144). -/
def zeroPad (size : Nat) (B : List Byte) : List Byte := B ++ zeros (size - B.length)

/-- INIT accepts OUTLEN = N: 1 ≤ N ≤ NN_MAX(V) (R77, R142). -/
def outlenAccepted (v : Variant) (N : Nat) : Bool := decide (1 ≤ N) && decide (N ≤ v.nnMax)

/-- UPDATE accepts NBYTES = n: n ≤ 8 (R77, R143). -/
def nbytesAccepted (n : Nat) : Bool := decide (n ≤ 8)

end Sys2Proof.Machine
end

