-- ==== Sys2Proof/Machine/Compression.lean ====
section
/-! DEFINITION. The compression engine (R100 to R113): a pure, total function of the variant, the chaining value, the
block, the counter and the last-block flag. Words are `w` bits wide and sums wrap modulo `2^w` (R9, R164). -/

namespace Sys2Proof.Machine

/-- R100: the rotation of a `w`-bit word to the right by `n`, for 0 < n < w (log entry 15). -/
def rotr {w : Nat} (x : BitVec w) (n : Nat) : BitVec w := (x >>> n) ||| (x <<< (w - n))

/-- R106: the G mixing function, eight sequential updates. -/
def mixG {w : Nat} (P : Params w) (v : Vector (BitVec w) 16) (a b c d : Fin 16) (x y : BitVec w) :
    Vector (BitVec w) 16 :=
  let v := v.set a (v[a] + v[b] + x)
  let v := v.set d (rotr (v[d] ^^^ v[a]) P.r1)
  let v := v.set c (v[c] + v[d])
  let v := v.set b (rotr (v[b] ^^^ v[c]) P.r2)
  let v := v.set a (v[a] + v[b] + y)
  let v := v.set d (rotr (v[d] ^^^ v[a]) P.r3)
  let v := v.set c (v[c] + v[d])
  v.set b (rotr (v[b] ^^^ v[c]) P.r4)

/-- R107: the four column calls of G with the schedule row `s`. -/
def mixColumns {w : Nat} (P : Params w) (v m : Vector (BitVec w) 16) (s : Vector (Fin 16) 16) : Vector (BitVec w) 16 :=
  let v := mixG P v 0 4 8 12 m[s[0]] m[s[1]]
  let v := mixG P v 1 5 9 13 m[s[2]] m[s[3]]
  let v := mixG P v 2 6 10 14 m[s[4]] m[s[5]]
  mixG P v 3 7 11 15 m[s[6]] m[s[7]]

/-- R107: the four diagonal calls of G with the schedule row `s`. -/
def mixDiagonals {w : Nat} (P : Params w) (v m : Vector (BitVec w) 16) (s : Vector (Fin 16) 16) : Vector (BitVec w) 16 :=
  let v := mixG P v 0 5 10 15 m[s[8]] m[s[9]]
  let v := mixG P v 1 6 11 12 m[s[10]] m[s[11]]
  let v := mixG P v 2 7 8 13 m[s[12]] m[s[13]]
  mixG P v 3 4 9 14 m[s[14]] m[s[15]]

/-- R107: round `r`. -/
def mixRound {w : Nat} (P : Params w) (v m : Vector (BitVec w) 16) (r : Nat) : Vector (BitVec w) 16 :=
  mixDiagonals P (mixColumns P v m (sigmaRow r)) m (sigmaRow r)

/-- R110: rounds 0 to n-1, in that order. -/
def mixRounds {w : Nat} (P : Params w) (m : Vector (BitVec w) 16) : Nat → Vector (BitVec w) 16 → Vector (BitVec w) 16
  | 0, v => v
  | n + 1, v => mixRound P (mixRounds P m n v) m n

/-- R105: PARSE, the block as sixteen little-endian words. -/
def parseBlock (w : Nat) (M : List Byte) : Vector (BitVec w) 16 := Vector.ofFn fun i => leWordAt w M i

/-- The counter's low word, `t[w-1:0]` (R26). -/
def counterLow {w : Nat} (t : BitVec (2 * w)) : BitVec w := t.extractLsb' 0 w

/-- The counter's high word, `t[2w-1:w]` (R26). -/
def counterHigh {w : Nat} (t : BitVec (2 * w)) : BitVec w := t.extractLsb' w w

/-- R108: VINIT, the working vector from the chaining value, the IV, the counter and the last-block flag `f`. -/
def initVector {w : Nat} (P : Params w) (h : Vector (BitVec w) 8) (t : BitVec (2 * w)) (f : Bool) :
    Vector (BitVec w) 16 :=
  let v : Vector (BitVec w) 16 := Vector.ofFn fun i => if hi : i.val < 8 then h[i.val] else P.iv[i.val - 8]
  let v := v.set 12 (v[12] ^^^ counterLow t)
  let v := v.set 13 (v[13] ^^^ counterHigh t)
  if f then v.set 14 (v[14] ^^^ BitVec.allOnes w) else v

/-- R109: FEEDFORWARD. -/
def feedForward {w : Nat} (h : Vector (BitVec w) 8) (v : Vector (BitVec w) 16) : Vector (BitVec w) 8 :=
  Vector.ofFn fun i => h[i] ^^^ v[i.val] ^^^ v[i.val + 8]

/-- R110: COMPRESS at word width `w`. -/
def compress {w : Nat} (P : Params w) (h : Vector (BitVec w) 8) (M : List Byte) (t : BitVec (2 * w)) (f : Bool) :
    Vector (BitVec w) 8 :=
  feedForward h (mixRounds P (parseBlock w M) P.rounds (initVector P h t f))

/-- The `w`-bit words of a chaining value held in 64-bit containers (R42). -/
def unpackWords (w : Nat) (h : Vector Word64 8) : Vector (BitVec w) 8 := Vector.ofFn fun i => h[i].setWidth w

/-- A chaining value in 64-bit containers, bits 63:w zero (R42). -/
def packWords {w : Nat} (h : Vector (BitVec w) 8) : Vector Word64 8 := Vector.ofFn fun i => h[i].setWidth 64

/-- COMPRESS of a variant (R110, R113) on the containers of the state. -/
def compressAt (v : Variant) (h : Vector Word64 8) (M : List Byte) (t : BitVec 128) (f : Bool) : Vector Word64 8 :=
  packWords (compress (params v) (unpackWords v.wordBits h) M (t.setWidth (2 * v.wordBits)) f)

/-- `(t + n) mod 2^(2w)`: the byte counter advanced by `n` message bytes (R26, R143, R144). -/
def advanceCounter (v : Variant) (t : BitVec 128) (n : Nat) : BitVec 128 :=
  (t.setWidth (2 * v.wordBits) + BitVec.ofNat (2 * v.wordBits) n).setWidth 128

/-- R142: the chaining value INIT seeds, the IV with `h[0]` XORed with `zext_w(P0(N))`. -/
def seedChain (v : Variant) (N : Nat) : Vector Word64 8 :=
  let iv := (params v).iv
  packWords (iv.set 0 (iv[0] ^^^ (paramWord N).setWidth v.wordBits))

end Sys2Proof.Machine
end

