-- ==== Sys2Proof/Machine/Flags.lean ====
section
/-! DEFINITION. The status fields. The engine has no condition codes and no arithmetic flags (R36); what a command reports
is PHASE, VARIANT, BUSY, ERR, OUTLEN and BUFLEN in STATUS (R37), with the codes of R29 and R181 and the rule that records
an error (R186). -/

namespace Sys2Proof.Machine

/-- The codes of PHASE (R29, R37). -/
def Phase.code : Phase → BitVec 2
  | .idle => 0#2
  | .active => 1#2
  | .finalized => 2#2

/-- The codes of ERR (R181). -/
def ErrCode.code : ErrCode → BitVec 3
  | .none => 0#3
  | .invalidParameter => 1#3
  | .invalidState => 2#3
  | .illegalCommand => 3#3
  | .busyViolation => 4#3

/-- BUFLEN, `|B|` in eight bits (R37). -/
def bufLen (e : Engine) : BitVec 8 := BitVec.ofNat 8 e.buf.length

/-- STATUS (R37), the fields side by side and zero-extended, with the reserved bits 7:4, 15:11, 31:23 and 63:40 reading 0. -/
def statusWord (e : Engine) : Word64 :=
  BitVec.setWidth 64 (bufLen e ++ (0#9 ++ (e.outlen ++ (0#5 ++ (e.err.code ++ (0#4 ++
    (BitVec.ofBool e.busy ++ (e.variant.tag ++ e.phase.code))))))))

/-- Error recording (R186): the first error is kept, and no other state changes. -/
def Engine.raise (k : ErrCode) (e : Engine) : Engine := if e.err = .none then { e with err := k } else e

/-- The check INIT makes of its operands (R142); INIT makes none of the phase. -/
def initCheck (v : Variant) (N : Nat) (_e : Engine) : ErrCode :=
  if outlenAccepted v N then .none else .invalidParameter

/-- The checks of UPDATE in the order of R188: the phase, then the operand (R143). -/
def updateCheck (n : Nat) (e : Engine) : ErrCode :=
  if e.phase ≠ .active then .invalidState
  else if nbytesAccepted n then .none else .invalidParameter

/-- The check of FINAL (R144). -/
def finalCheck (e : Engine) : ErrCode := if e.phase ≠ .active then .invalidState else .none

end Sys2Proof.Machine
end

