-- ==== Sys2Proof/Machine/Ops.lean ====
section
/-! DEFINITION. The shared operations over an engine and over the system. The engine has no trap entry and no trap return
(R180, R192): what taking an exception is elsewhere is `Engine.raise` here (R186), and `Engine.command` is the one place
where a command either raises or takes effect whole (R140, R185). -/

namespace Sys2Proof.Machine

/-- A command (R140): BUSY_VIOLATION first (R188, R190), then the command's own checks; the first that fails raises its
error and the command has no other effect; a command that raises nothing has its effect. -/
def Engine.command (check : Engine → ErrCode) (effect : Engine → Engine) (e : Engine) : Engine :=
  if e.busy then e.raise .busyViolation
  else if check e = .none then effect e
  else e.raise (check e)

/-- The block size of the current variant. -/
def Engine.blockBytes (e : Engine) : Nat := e.variant.blockBytes

/-- The body of UPDATE's loop (R143): advance `t` by `bs`, compress the oldest full block with f = 0, remove it from B. -/
def Engine.compressOldest (e : Engine) : Engine :=
  let t := advanceCounter e.variant e.t e.blockBytes
  { e with
    t := t
    h := compressAt e.variant e.h (e.buf.take e.blockBytes) t false
    buf := e.buf.drop e.blockBytes }

/-- UPDATE's loop (R143), `while |B| > bs`, strictly greater; the first argument bounds the number of iterations. -/
def Engine.drain : Nat → Engine → Engine
  | 0, e => e
  | k + 1, e => if e.blockBytes < e.buf.length then Engine.drain k e.compressOldest else e

/-- Append bytes to B and drain it (R143). Each iteration removes a block, so `|B|` iterations are enough. -/
def Engine.absorb (bytes : List Byte) (e : Engine) : Engine :=
  Engine.drain (e.buf ++ bytes).length { e with buf := e.buf ++ bytes }

/-- Pad and compress the last block with f = 1, empty B and enter FINALIZED (R144). -/
def Engine.finish (e : Engine) : Engine :=
  let t := advanceCounter e.variant e.t e.buf.length
  { e with
    t := t
    h := compressAt e.variant e.h (zeroPad e.blockBytes e.buf) t true
    buf := []
    phase := .finalized }

/-- A fresh context (R142): everything but BUSY and DIN is written. -/
def Engine.create (v : Variant) (N : Nat) (e : Engine) : Engine :=
  { e with
    variant := v
    outlen := BitVec.ofNat 7 N
    h := seedChain v N
    t := 0#128
    buf := []
    phase := .active
    err := .none }

/-- Apply `f` to the instance the event in progress acts on; every other instance keeps its state (R58). -/
def State.onEngine (f : Engine → Engine) (s : State) : State := { s with engine := f s.engine }

/-- All instances in order: instance `k` is the element at index `k`, and the length is `N_ENGINES` (R8, R197). -/
def State.instances (s : State) : List Engine := s.before ++ s.engine :: s.after

/-- Bring instance `k` into `engine`, changing no instance; `none` where there is no instance `k`. -/
def State.select (k : Nat) (s : State) : Option State :=
  match s.instances.drop k with
  | [] => none
  | e :: rest => some { s with before := s.instances.take k, engine := e, after := rest }

/-- Hand a read value to the host (R64). -/
def State.reply (x : Word64) (s : State) : State := { s with replies := s.replies ++ [x] }

/-- Count one free value as drawn (log entry 5). -/
def State.draw (s : State) : State := { s with draws := s.draws + 1 }

end Sys2Proof.Machine
end

