-- ==== Sys2Proof/Machine/Registers.lean ====
section
/-! DEFINITION. The register window (R50 to R54): what each aligned 64-bit read returns (R145 to R147) and what a write to a
register other than CMD does (R148, R53). -/

namespace Sys2Proof.Machine

/-- T0 (R38): `t[w-1:0]` at the current variant's width, zero-extended. -/
def t0Word (e : Engine) : Word64 :=
  (counterLow (e.t.setWidth (2 * e.variant.wordBits))).setWidth 64

/-- T1 (R38): `t[2w-1:w]` at the current variant's width, zero-extended. -/
def t1Word (e : Engine) : Word64 :=
  (counterHigh (e.t.setWidth (2 * e.variant.wordBits))).setWidth 64

/-- `FULL` (R39): the little-endian serialisation of the chaining value at the variant's word size. -/
def chainBytes (e : Engine) : List Byte := e.h.toList.flatMap (leBytes (e.variant.wordBits / 8))

/-- Byte `j` of the digest image `D` (R39): 0 outside FINALIZED and at and beyond `nn`. -/
def digestByte (e : Engine) (j : Nat) : Byte :=
  if e.phase = .finalized ∧ j < e.outlen.toNat then (chainBytes e).getD j 0#8 else 0#8

/-- DOUTk (R39): bytes `8k` to `8k+7` of the digest image, little-endian. -/
def doutWord (e : Engine) (k : Nat) : Word64 := leWord 64 ((List.range 8).map fun i => digestByte e (8 * k + i))

/-- The registers of the window (R51). -/
inductive Reg where
  | cmd
  | din
  | status
  | t0
  | t1
  | dout (k : Nat)
  /-- A reserved or unmapped offset (R51, R53). -/
  | unmapped
  deriving DecidableEq, Repr

/-- R51: the register at a byte offset. Offsets that are no multiple of 8 never come here (R52). -/
def regAt (off : BitVec 7) : Reg :=
  match off.toNat with
  | 0x00 => .cmd
  | 0x08 => .din
  | 0x10 => .status
  | 0x20 => .t0
  | 0x28 => .t1
  | n => if 0x40 ≤ n then .dout ((n - 0x40) / 8) else .unmapped

/-- What a read returns: STATUS (R145), T0 and T1 (R146), DOUTk (R147), and 0 at CMD, DIN and every
unmapped offset (R40, R53). -/
def readReg (e : Engine) : Reg → Word64
  | .cmd => 0#64
  | .din => 0#64
  | .status => statusWord e
  | .t0 => t0Word e
  | .t1 => t1Word e
  | .dout k => doutWord e k
  | .unmapped => 0#64

/-- The registers whose value the spec leaves unspecified while BUSY = 1 (R216). -/
def Reg.openWhileBusy : Reg → Bool
  | .status => true
  | .t0 => true
  | .t1 => true
  | .dout _ => true
  | .cmd => false
  | .din => false
  | .unmapped => false

/-- What a read of one of them returns while BUSY = 1, from the free value `x` (R216): bit 3 of STATUS is 1. -/
def busyValue (r : Reg) (x : Word64) : Word64 := if r = .status then x ||| 0x8#64 else x

/-- An aligned 64-bit read: the value goes to the host and no engine state changes (R54). While BUSY = 1 a read of a
register of `Reg.openWhileBusy` uses the next free value. -/
def State.performRead (off : BitVec 7) (s : State) : State :=
  if s.engine.busy ∧ (regAt off).openWhileBusy then
    (s.reply (busyValue (regAt off) (Config.freeRead s.draws))).draw
  else s.reply (readReg s.engine (regAt off))

/-- The DIN write (R148): it sets the latch in every phase; while BUSY = 1 it is discarded with BUSY_VIOLATION (R190). -/
def Engine.writeDin (x : Word64) (e : Engine) : Engine := if e.busy then e.raise .busyViolation else { e with din := x }

/-- An aligned 64-bit write to a register other than CMD: only DIN takes it; every other write is ignored and records no
error (R53). -/
def Engine.writeReg (x : Word64) (e : Engine) : Reg → Engine
  | .din => e.writeDin x
  | .cmd => e
  | .status => e
  | .t0 => e
  | .t1 => e
  | .dout _ => e
  | .unmapped => e

end Sys2Proof.Machine
end

