-- ==== Sys2Proof/Machine/Digest.lean ====
section
/-! DEFINITION. The meanings of the three commands of the digest state machine (R142 to R144). Each takes a next state in
every state: a failing command is a next state with its error recorded (R185, R186, R222). -/

namespace Sys2Proof.Machine

/-- R142: INIT. -/
def execInit (variant : Variant) (outlen : Nat) (s : State) : Outcome :=
  .next (s.onEngine (Engine.command (initCheck variant outlen) (Engine.create variant outlen)))

/-- R143: UPDATE. -/
def execUpdate (nbytes : Nat) (s : State) : Outcome :=
  .next (s.onEngine (Engine.command (updateCheck nbytes) (fun e => e.absorb (dinBytes nbytes e.din))))

/-- R144: FINAL. -/
def execFinal (s : State) : Outcome :=
  .next (s.onEngine (Engine.command finalCheck Engine.finish))

end Sys2Proof.Machine
end

