-- ==== Sys2Proof/Machine/Dispatch.lean ====
section
/-! DEFINITION. The meaning of every command, one arm per constructor of `Instr`. -/

namespace Sys2Proof.Machine

/-- The command performed on the instance the event in progress acts on (R140). -/
def exec (i : Instr) (s : State) : Host.Outcome State Fault Refusal :=
  match i with
  | .init variant outlen => Sys2Proof.Machine.execInit variant outlen s
  | .update nbytes => Sys2Proof.Machine.execUpdate nbytes s
  | .final => Sys2Proof.Machine.execFinal s

end Sys2Proof.Machine
end

