-- ==== Sys2Proof/Machine/Bus.lean ====
section
/-! DEFINITION. How one host event is performed (R20, R50 to R57, R140, R210). The engine has no program counter and fetches
nothing (R21, R63): its commands are the words the host writes to CMD, so the host's pending accesses stand where another
machine has its program (log entry 1). -/

namespace Sys2Proof.Machine

/-- The only access the interface defines: 64 bits at a multiple of 8 (R52). -/
def accessDefined (off : BitVec 7) (width : AccessWidth) : Bool := width == .w64 && off.toNat % 8 == 0

/-- R140: a write of the word `c` to CMD executes exactly one command. BUSY_VIOLATION comes before ILLEGAL_COMMAND (R188);
for a legal word the command itself makes the BUSY check. -/
def commandWrite (c : Word64) (s : State) : Outcome :=
  match decode c with
  | .command i => exec i s
  | .illegal _ => .next (s.onEngine fun e => if e.busy then e.raise .busyViolation else e.raise .illegalCommand)

/-- One event on the instance in `engine`. -/
def perform (ev : HostEvent) (s : State) : Outcome :=
  match ev with
  | .reset _ => .next (s.onEngine fun _ => Engine.reset)
  | .read _ off width => if accessDefined off width then .next (s.performRead off) else .refused .undefinedAccess
  | .write _ off width x =>
    if accessDefined off width then
      if regAt off = .cmd then commandWrite x s else .next (s.onEngine fun e => e.writeReg x (regAt off))
    else .refused .undefinedAccess

/-- The next event, performed on its instance (R57: one at a time, in the order issued, each complete before the next).
With no event pending no engine acts: all state is held (R20, R199). -/
def performNext (s : State) : Outcome :=
  match s.requests with
  | [] => .next s
  | ev :: rest =>
    match State.select ev.target { s with requests := rest } with
    | none => .fault .noSuchInstance
    | some s' => perform ev s'

/-- The CMD write of the command word `c` to the instance in `engine`. -/
def cmdWriteEvent (c : Word64) (s : State) : HostEvent := .write s.before.length 0x00#7 .w64 c

end Sys2Proof.Machine
end

