-- ==== Sys2Proof/Machine/Step.lean ====
section
/-! DEFINITION. One step of the system: the next host event is performed, a command being one atomic transition (R12). -/

namespace Sys2Proof.Machine

/-- One step (R12, R20, R57). -/
def step (s : State) : Host.Outcome State Fault Refusal := performNext s

/-- `s` with the command word, whose low `nbits` bits are `w` and whose other bits are 0, as the host's next access: its
write to CMD of the instance in `engine`. No other field changes (log entry 1). -/
def State.withFetchWord (s : State) (nbits w : Nat) : State :=
  { s with requests := cmdWriteEvent (BitVec.ofNat 64 (w % 2 ^ nbits)) s :: s.requests }

end Sys2Proof.Machine
end

