-- ==== Sys2Proof/Machine/HostSide.lean ====
section
/-! DEFINITION. The host's side, which the engine does not perform: the assembler syntax and pseudo-instructions (R79, R80),
the sequence for one digest (R212), and the host functions stated so that a host's output can be compared bit for bit
(R160 to R163). -/

namespace Sys2Proof.Machine

/-- `wr CMD, <encoding>` on instance `k` (R79): `init.b nn`, `init.s nn`, `update n` and `final` are this on their `Instr`;
`encode` says what an operand out of range assembles to (log entry 16). -/
def wrCmd (k : Nat) (i : Instr) : HostEvent := .write k 0x00#7 .w64 (encode i)

/-- `wr DIN, x` (R79). -/
def wrDin (k : Nat) (x : Word64) : HostEvent := .write k 0x08#7 .w64 x

/-- `rd STATUS` (R79). -/
def rdStatus (k : Nat) : HostEvent := .read k 0x10#7 .w64

/-- `rd DOUTj` (R79, R51). -/
def rdDout (k j : Nat) : HostEvent := .read k (BitVec.ofNat 7 (0x40 + 8 * j)) .w64

/-- `wait` (R80): in the atomic model BUSY reads 0 the first time, so it is one read of STATUS. -/
def waitBusy (k : Nat) : List HostEvent := [rdStatus k]

/-- The successive chunks of up to 8 bytes (R80); the first argument bounds their number. -/
def chunks : Nat → List Byte → List (List Byte)
  | 0, _ => []
  | _ + 1, [] => []
  | n + 1, b :: bs => (b :: bs).take 8 :: chunks n ((b :: bs).drop 8)

/-- One chunk (R80): `wr DIN, x` with the chunk packed little-endian and zero high bytes, then `update n`. -/
def absorbChunk (k : Nat) (chunk : List Byte) : List HostEvent :=
  [wrDin k (leWord 64 chunk), wrCmd k (.update chunk.length)]

/-- `absorb "bytes"` (R80). -/
def absorbProgram (k : Nat) (bytes : List Byte) : List HostEvent :=
  (chunks bytes.length bytes).flatMap (absorbChunk k)

/-- `hash.b nn, "bytes"` and `hash.s nn, "bytes"` (R80). -/
def hashProgram (k : Nat) (v : Variant) (nn : Nat) (bytes : List Byte) : List HostEvent :=
  wrCmd k (.init v nn) :: (absorbProgram k bytes ++ [wrCmd k .final])

/-- The host's sequence for one digest (R212, items 2 to 6): hash, read STATUS, read DOUT0 to DOUT(⌈nn/8⌉ - 1). -/
def digestProgram (k : Nat) (v : Variant) (nn : Nat) (bytes : List Byte) : List HostEvent :=
  hashProgram k v nn bytes ++ rdStatus k :: (List.range ((nn + 7) / 8)).map (rdDout k)

/-- R160: one hexadecimal digit, lower case. -/
def hexDigit (d : BitVec 4) : Char :=
  if d.toNat < 10 then Char.ofNat (0x30 + d.toNat) else Char.ofNat (0x61 + (d.toNat - 10))

/-- R160: HEX, two lower-case digits per byte, the most significant nibble first, in byte order. -/
def hexChars (digest : List Byte) : List Char :=
  digest.flatMap fun b => [hexDigit (b.extractLsb' 4 4), hexDigit (b.extractLsb' 0 4)]

/-- R161: the line of plain mode, the digest, two spaces and the name. The line terminator is not given by the source. -/
def plainLine (digest : List Byte) (displayName : String) : String :=
  String.ofList (hexChars digest) ++ "  " ++ displayName

/-- R161: ALGO_NAME, the variant name (which the source does not spell, so it is an argument) with "blake" in capitals. -/
def algoName (variantName : String) : String :=
  if variantName.toList.take 5 = "blake".toList then String.ofList ("BLAKE".toList ++ variantName.toList.drop 5)
  else variantName

/-- R161: the line of tagged mode. -/
def taggedLine (digest : List Byte) (variantName displayName : String) : String :=
  algoName variantName ++ " (" ++ displayName ++ ") = " ++ String.ofList (hexChars digest)

/-- R162: the OUTLEN the host passes to INIT for a length in bits; `none` is the host's own InvalidParameter. -/
def outlenOfBits (v : Variant) (bits : Nat) : Option Nat :=
  if bits = 0 then some v.nnMax
  else if bits % 8 ≠ 0 then none
  else if bits / 8 ≤ 127 then some (bits / 8)
  else none

/-- R162: the variant of a name. The source does not spell the two names (R161), so `names` gives them (log entry 11); `none`,
for any other name, is the host's own InvalidParameter. -/
def variantOfName (names : Variant → String) (name : String) : Option Variant :=
  if name = names .blake2b then some .blake2b
  else if name = names .blake2s then some .blake2s
  else none

/-- R162: the INIT the host issues for a variant name and a length in bits; `none` is the host's own InvalidParameter, reported
without issuing INIT. -/
def hostCreate (names : Variant → String) (name : String) (bits : Nat) : Option Instr :=
  (variantOfName names name).bind fun v => (outlenOfBits v bits).map (Instr.init v)

/-- R163: the results of a batch in input order. A path met before reuses its digest, and the first error (`none`) stops
the whole run. `seen` holds the digests computed so far. -/
def digestBatch {Path Digest : Type} [DecidableEq Path] (digestOf : Path → Option Digest) :
    List (Path × Digest) → List Path → Option (List Digest)
  | _, [] => some []
  | seen, p :: ps =>
    match (seen.find? fun e => e.1 = p).map Prod.snd with
    | some d => (digestBatch digestOf seen ps).map (d :: ·)
    | none =>
      match digestOf p with
      | none => none
      | some d => (digestBatch digestOf ((p, d) :: seen) ps).map (d :: ·)

end Sys2Proof.Machine
end

