-- ==== Sys2Proof/Safety.lean ====
section
/-! DEFINITION. The terms claims are stated in: the invariants of the hasher context, the accesses the interface defines,
the host's view of one access, and BLAKE2 of a whole message as the rules describe it. -/

namespace Sys2Proof.Machine

/-- The invariant of one instance between commands. -/
structure Engine.Inv (e : Engine) : Prop where
  /-- R32: a host access always finds BUSY = 0. -/
  atomic : e.busy = false
  /-- R28: `|B| ≤ bs`. -/
  bufBound : e.buf.length ≤ e.variant.blockBytes
  /-- R28: in IDLE and FINALIZED, `|B| = 0`. -/
  bufEmpty : e.phase ≠ .active → e.buf = []
  /-- R28, R144: in ACTIVE an empty buffer means that nothing was absorbed, and then `t = 0`. -/
  heldBack : e.phase = .active → e.buf = [] → e.t = 0#128
  /-- R24: in ACTIVE and FINALIZED, 1 ≤ nn ≤ NN_MAX. -/
  outlenRange : e.phase ≠ .idle → 1 ≤ e.outlen.toNat ∧ e.outlen.toNat ≤ e.variant.nnMax
  /-- R24, R41, R146: in IDLE the context has its reset values. -/
  idleContext : e.phase = .idle → e.variant = .blake2b ∧ e.outlen = 0#7 ∧ e.h = Engine.reset.h ∧ e.t = 0#128
  /-- R42: for BLAKE2s, bits 63:32 of every `h[i]` are zero. -/
  chainWidth : e.variant = .blake2s → ∀ i : Fin 8, e.h[i].toNat < 2 ^ 32
  /-- R42: for BLAKE2s, `t` is below `2^64`. -/
  counterWidth : e.variant = .blake2s → e.t.toNat < 2 ^ 64

/-- Every instance meets its invariant. -/
def State.Inv (s : State) : Prop := ∀ e ∈ s.instances, e.Inv

/-- The system has the instance the event acts on, and a host access is one the interface defines (R52, R197). -/
def HostEvent.accepted (N : Nat) : HostEvent → Bool
  | .read k off width => decide (k < N) && accessDefined off width
  | .write k off width _ => decide (k < N) && accessDefined off width
  | .reset k => decide (k < N)

/-- `s` with one more event as the next to be performed. -/
def State.withEvent (ev : HostEvent) (s : State) : State := { s with requests := ev :: s.requests }

/-- The step that performs `MemWrite(off, 8, x)` on the instance in `engine`. -/
def hostWrite (off : BitVec 7) (x : Word64) (s : State) : Outcome :=
  step (s.withEvent (.write s.before.length off .w64 x))

/-- The step that performs `MemRead(off, 8)` on the instance in `engine`. -/
def hostRead (off : BitVec 7) (s : State) : Outcome := step (s.withEvent (.read s.before.length off .w64))

/-- The step that performs the platform's reset of the instance in `engine`. -/
def platformReset (s : State) : Outcome := step (s.withEvent (.reset s.before.length))

/-- `n` steps of the system, stopping at the first fault or refusal: `Host.Core.run` of this machine. -/
def run : Nat → State → Outcome
  | 0, s => .next s
  | n + 1, s =>
    match step s with
    | .next s' => run n s'
    | .fault r => .fault r
    | .refused r => .refused r

/-- The run that performs exactly the events of `evs`, from `s` with these as its pending events. -/
def runEvents (evs : List HostEvent) (s : State) : Outcome := run evs.length { s with requests := evs }

/-- R186: `s` with the error recorded on the instance in `engine`, the first error being kept, and nothing else changed. -/
def State.recorded (k : ErrCode) (s : State) : State :=
  { s with engine := { s.engine with err := if s.engine.err = .none then k else s.engine.err } }

/-- The first error of the list of R188 that applies to a CMD write of `c`, and `none` where the command succeeds. -/
def commandError (e : Engine) (c : Word64) : ErrCode :=
  if e.busy then .busyViolation
  else
    match decode c with
    | .illegal _ => .illegalCommand
    | .command (.init v N) => if N = 0 ∨ v.nnMax < N then .invalidParameter else .none
    | .command (.update n) => if e.phase ≠ .active then .invalidState else if 8 < n then .invalidParameter else .none
    | .command .final => if e.phase ≠ .active then .invalidState else .none

/-- The event writes the command word `c` to CMD of instance `k`. -/
def HostEvent.writesCmd (k : Nat) (c : Word64) (ev : HostEvent) : Prop := ev = .write k 0x00#7 .w64 c

/-- The event starts a fresh context on instance `k`, whose state is `e`: a successful INIT (R142). -/
def HostEvent.creates (k : Nat) (e : Engine) (ev : HostEvent) : Prop :=
  ∃ c v N, ev.writesCmd k c ∧ decode c = .command (.init v N) ∧ commandError e c = .none

/-- The phase of an instance in state `e` after the event is performed on it, by the table of R29. -/
def phaseAfter (e : Engine) : HostEvent → Phase
  | .reset _ => .idle
  | .read _ _ _ => e.phase
  | .write _ off _ c =>
    if off = 0x00#7 ∧ commandError e c = .none then
      match decode c with
      | .command (.init _ _) => .active
      | .command (.update _) => .active
      | .command .final => .finalized
      | .illegal _ => e.phase
    else e.phase

/-- Two states of an instance that agree on all that a read can show (R35, R40): everything but DIN, the contents of B (its
length is visible), `h` outside FINALIZED, and the bytes of `h` at and beyond `nn`. -/
def SameView (e e' : Engine) : Prop :=
  e.phase = e'.phase ∧ e.variant = e'.variant ∧ e.outlen = e'.outlen ∧ e.t = e'.t ∧ e.buf.length = e'.buf.length ∧
  e.err = e'.err ∧ e.busy = e'.busy ∧
  (e.phase = .finalized → (chainBytes e).take e.outlen.toNat = (chainBytes e').take e'.outlen.toNat)

/-- The chaining value of BLAKE2 after the rest `M` of a message, `done` bytes of which are already compressed into `h`
(R143, R144, R151, R155): every block but the last with f = 0, the last padded with f = 1, each with the number of
message bytes consumed up to and including it as its counter. `fuel` bounds the number of blocks. -/
def hashBlocks (v : Variant) : Nat → Nat → Vector Word64 8 → List Byte → Vector Word64 8
  | 0, done, h, M => compressAt v h (zeroPad v.blockBytes M) (BitVec.ofNat 128 (done + M.length)) true
  | fuel + 1, done, h, M =>
    if v.blockBytes < M.length then
      hashBlocks v fuel (done + v.blockBytes)
        (compressAt v h (M.take v.blockBytes) (BitVec.ofNat 128 (done + v.blockBytes)) false) (M.drop v.blockBytes)
    else compressAt v h (zeroPad v.blockBytes M) (BitVec.ofNat 128 (done + M.length)) true

/-- BLAKE2 of the whole message `M` with a digest of `nn` bytes (R142, R39, R153). -/
def blake2 (v : Variant) (nn : Nat) (M : List Byte) : List Byte :=
  ((hashBlocks v M.length 0 (seedChain v nn) M).toList.flatMap (leBytes (v.wordBits / 8))).take nn

end Sys2Proof.Machine
end

