-- ==== Sys2Proof/Certificates/Slice0/Obligations.lean ====
section
/-! DEFINITION. The statements about the machine, each from the rules its docstring cites. A statement about one access or
one command is about the instance in `engine`; `AnEventReachesItsInstance` says how an event reaches any other. -/

open Sys2Proof Sys2Proof.Machine

/-! ### Encoding -/

/-- R81: the spec's example words decode to their commands, and its illegal words to Illegal. -/
def Obligations.ExampleWordsDecode : Prop :=
  decode 0x0000000000004001#64 = .command (.init .blake2b 64) ∧
  decode 0x0000000000002001#64 = .command (.init .blake2b 32) ∧
  decode 0x0000000000001401#64 = .command (.init .blake2b 20) ∧
  decode 0x0000000000000101#64 = .command (.init .blake2b 1) ∧
  decode 0x0000000000002011#64 = .command (.init .blake2s 32) ∧
  decode 0x0000000000001011#64 = .command (.init .blake2s 16) ∧
  decode 0x0000000000000802#64 = .command (.update 8) ∧
  decode 0x0000000000000002#64 = .command (.update 0) ∧
  decode 0x0000000000000003#64 = .command .final ∧
  decode 0x0000000000000000#64 = .illegal .reservedOpcode ∧
  decode 0x0000000000004021#64 = .illegal .reservedBits ∧
  decode 0x0000000000010003#64 = .illegal .reservedBits ∧
  decode 0x0000000000000013#64 = .illegal .reservedBits

/-- R71, R72, R73, R74: decoding the word of a command, its operands at any value the fields admit, gives it back. -/
def Obligations.DecodeOfEncodeIsTheCommand : Prop :=
  ∀ i : Instr, i.wellFormed = true → decode (encode i) = .command i

/-- R78: a word that decodes to a command is the word of that command, so no two words are one command. -/
def Obligations.DecodedWordIsItsEncoding : Prop :=
  ∀ (c : Word64) (i : Instr), decode c = .command i → i.wellFormed = true ∧ encode i = c

/-- R76: a word is Illegal exactly when its OP is 0x0 or 0x4 to 0xF, or a bit its format fixes to 0 is 1; and its CMD write
fails with ILLEGAL_COMMAND. -/
def Obligations.IllegalWordsAreTheReservedAndMalformed : Prop :=
  ∀ c : Word64,
    ((∃ r, decode c = .illegal r) ↔
      let op := (c.extractLsb' 0 4).toNat
      (op = 0 ∨ 4 ≤ op) ∨
      (op = 1 ∧ (c.extractLsb' 15 49 ≠ 0#49 ∨ c.extractLsb' 5 3 ≠ 0#3)) ∨
      (op = 2 ∧ (c.extractLsb' 12 52 ≠ 0#52 ∨ c.extractLsb' 4 4 ≠ 0#4)) ∨
      (op = 3 ∧ c.extractLsb' 4 60 ≠ 0#60)) ∧
    ∀ (s : State) (r : IllegalReason), decode c = .illegal r → s.engine.busy = false →
      hostWrite 0x00#7 c s = .next (s.recorded .illegalCommand)

/-! ### Steps and events -/

/-- An event on instance `k` is performed on that instance, brought into `engine`, with every instance as it was and the
event taken from the pending ones; the CMD write of a legal word there runs the decoded command, and so does the word
that `withFetchWord` places. That the events are pending in the state and that the instance is brought into `engine` are
the model's choices (log entries 1 and 2). -/
def Obligations.AnEventReachesItsInstance : Prop :=
  (∀ (s : State) (ev : HostEvent) (rest : List HostEvent),
    s.requests = ev :: rest → ev.target < s.instances.length →
    ∃ s0 : State, s0.instances = s.instances ∧ s.instances[ev.target]? = some s0.engine ∧
      s0.before.length = ev.target ∧ s0.requests = rest ∧ s0.replies = s.replies ∧ s0.draws = s.draws ∧
      step s = perform ev s0 ∧
      ∀ (c : Word64) (i : Instr), ev = .write ev.target 0x00#7 .w64 c → decode c = .command i → step s = exec i s0) ∧
  (∀ (s : State) (w : Nat) (i : Instr), decode (BitVec.ofNat 64 w) = .command i →
    step (s.withFetchWord 64 w) = exec i s)

/-- R20, R199: with no host access and no reset pending, no engine acts and all state is held. -/
def Obligations.NoEventHoldsAllState : Prop :=
  ∀ s : State, s.requests = [] → step s = .next s

/-- R52: an access of another width or at an unaligned offset is refused. -/
def Obligations.UndefinedAccessesAreRefused : Prop :=
  ∀ (s : State) (rest : List HostEvent) (k : Nat) (off : BitVec 7) (width : AccessWidth) (x : Word64),
    k < s.instances.length → width ≠ .w64 ∨ off.toNat % 8 ≠ 0 →
    (s.requests = .read k off width :: rest → step s = .refused .undefinedAccess) ∧
    (s.requests = .write k off width x :: rest → step s = .refused .undefinedAccess)

/-- The model's choice (log entry 6): an event on an instance that does not exist faults. -/
def Obligations.MissingInstancesFault : Prop :=
  ∀ (s : State) (ev : HostEvent) (rest : List HostEvent),
    s.requests = ev :: rest → s.instances.length ≤ ev.target → step s = .fault .noSuchInstance

/-- R57, R222: performing any pending events the interface defines completes, one after the other, and the host has one
reply per read. -/
def Obligations.DefinedEventsAllComplete : Prop :=
  ∀ (evs : List HostEvent) (s : State), (∀ ev ∈ evs, ev.accepted s.instances.length = true) →
    ∃ s' : State, runEvents evs s = .next s' ∧ s'.requests = [] ∧ s'.instances.length = s.instances.length ∧
      s'.replies.length = s.replies.length +
        (evs.filter fun ev => match ev with | .read _ _ _ => true | _ => false).length

/-- R222: every CMD write, of any word in any state, is one step that completes, with the error of R188 recorded or, where
there is none, with the command's effect; where BUSY was 0 it is 0 again. -/
def Obligations.EveryCommandWriteCompletes : Prop :=
  ∀ (s : State) (c : Word64), ∃ s' : State,
    hostWrite 0x00#7 c s = .next s' ∧ s'.engine.busy = s.engine.busy ∧
    (commandError s.engine c ≠ .none → s' = s.recorded (commandError s.engine c)) ∧
    (commandError s.engine c = .none → ∃ i, decode c = .command i ∧ exec i s = .next s')

/-! ### The commands -/

/-- R142: INIT. Where it succeeds, in any phase, the context is fresh, with the chaining value the IV of R101 and `h[0]`
XORed with `0x01010000 | N` (R141); where N = 0 or N > NN_MAX(V) it changes nothing but a clear ERR. -/
def Obligations.InitCreatesAFreshContext : Prop :=
  ∀ (s : State) (v : Variant) (N : Nat), s.engine.busy = false →
    (1 ≤ N → N ≤ (match v with | .blake2b => 64 | .blake2s => 32) →
      exec (.init v N) s = .next { s with engine := { s.engine with
        variant := v
        outlen := BitVec.ofNat 7 N
        h := match v with
          | .blake2b => #v[0x6A09E667F3BCC908#64 ^^^ (0x01010000#64 ||| BitVec.ofNat 64 N), 0xBB67AE8584CAA73B#64,
              0x3C6EF372FE94F82B#64, 0xA54FF53A5F1D36F1#64, 0x510E527FADE682D1#64, 0x9B05688C2B3E6C1F#64,
              0x1F83D9ABFB41BD6B#64, 0x5BE0CD19137E2179#64]
          | .blake2s => #v[0x6A09E667#64 ^^^ (0x01010000#64 ||| BitVec.ofNat 64 N), 0xBB67AE85#64, 0x3C6EF372#64,
              0xA54FF53A#64, 0x510E527F#64, 0x9B05688C#64, 0x1F83D9AB#64, 0x5BE0CD19#64]
        t := 0#128
        buf := []
        phase := .active
        err := .none } }) ∧
    (N = 0 ∨ (match v with | .blake2b => 64 | .blake2s => 32) < N →
      exec (.init v N) s = .next (s.recorded .invalidParameter))

/-- R143: UPDATE. In ACTIVE with n ≤ 8 it appends the low n bytes of DIN, byte 0 first, and, exactly where more than a block
is then buffered, advances `t` by the block size modulo `2^(2w)` and compresses the oldest block with f = 0; otherwise it
changes nothing but a clear ERR. -/
def Obligations.UpdateAbsorbsTheLatchBytes : Prop :=
  ∀ (s : State) (n : Nat), s.engine.busy = false →
    (s.engine.phase = .active → n ≤ 8 → s.engine.buf.length ≤ s.engine.variant.blockBytes →
      let e := s.engine
      let B := e.buf ++ (List.range n).map fun i => e.din.extractLsb' (8 * i) 8
      let bs := match e.variant with | .blake2b => 128 | .blake2s => 64
      let t := BitVec.ofNat 128 ((e.t.toNat + bs) % (match e.variant with | .blake2b => 2 ^ 128 | .blake2s => 2 ^ 64))
      exec (.update n) s = .next { s with engine :=
        if bs < B.length then { e with t := t, h := compressAt e.variant e.h (B.take bs) t false, buf := B.drop bs }
        else { e with buf := B } }) ∧
    (s.engine.phase ≠ .active → exec (.update n) s = .next (s.recorded .invalidState)) ∧
    (s.engine.phase = .active → 8 < n → exec (.update n) s = .next (s.recorded .invalidParameter))

/-- R144: FINAL. In ACTIVE it advances `t` by the buffered length modulo `2^(2w)`, compresses the zero-padded buffer with
f = 1, empties it and enters FINALIZED; elsewhere it changes nothing but a clear ERR. -/
def Obligations.FinalProducesTheDigest : Prop :=
  ∀ s : State, s.engine.busy = false →
    (s.engine.phase = .active → s.engine.buf.length ≤ s.engine.variant.blockBytes →
      let e := s.engine
      let bs := match e.variant with | .blake2b => 128 | .blake2s => 64
      let t := BitVec.ofNat 128
        ((e.t.toNat + e.buf.length) % (match e.variant with | .blake2b => 2 ^ 128 | .blake2s => 2 ^ 64))
      exec .final s = .next { s with engine := { e with
        t := t
        h := compressAt e.variant e.h (e.buf ++ List.replicate (bs - e.buf.length) 0#8) t true
        buf := []
        phase := .finalized } }) ∧
    (s.engine.phase ≠ .active → exec .final s = .next (s.recorded .invalidState))

/-- The frame of the three commands, in every state: no other instance, no pending event, no reply, not DIN and not BUSY is
changed; UPDATE and FINAL leave VARIANT and OUTLEN, and UPDATE leaves PHASE; ERR is cleared by INIT alone. -/
def Obligations.CommandsKeepTheRest : Prop :=
  ∀ (i : Instr) (s s' : State), exec i s = .next s' →
    s'.before = s.before ∧ s'.after = s.after ∧ s'.requests = s.requests ∧ s'.replies = s.replies ∧
    s'.draws = s.draws ∧ s'.engine.din = s.engine.din ∧ s'.engine.busy = s.engine.busy ∧
    ((∀ v N, i ≠ .init v N) → s'.engine.variant = s.engine.variant ∧ s'.engine.outlen = s.engine.outlen ∧
      (s.engine.err ≠ .none → s'.engine.err = s.engine.err)) ∧
    ((∃ n, i = .update n) → s'.engine.phase = s.engine.phase)

/-! ### Errors -/

/-- R188: of the errors that apply to one CMD write, the first of BUSY_VIOLATION, ILLEGAL_COMMAND, INVALID_STATE and
INVALID_PARAMETER is the one raised. -/
def Obligations.TheFirstErrorInOrderIsRaised : Prop :=
  ∀ (s : State) (c : Word64),
    let illegal := ∃ r, decode c = .illegal r
    let badState := ((∃ n, decode c = .command (.update n)) ∨ decode c = .command .final) ∧ s.engine.phase ≠ .active
    let badOperand := (∃ v N, decode c = .command (.init v N) ∧ (N = 0 ∨ v.nnMax < N)) ∨
      (∃ n, decode c = .command (.update n) ∧ 8 < n)
    (s.engine.busy = true → hostWrite 0x00#7 c s = .next (s.recorded .busyViolation)) ∧
    (s.engine.busy = false → illegal → hostWrite 0x00#7 c s = .next (s.recorded .illegalCommand)) ∧
    (s.engine.busy = false → ¬ illegal → badState → hostWrite 0x00#7 c s = .next (s.recorded .invalidState)) ∧
    (s.engine.busy = false → ¬ illegal → ¬ badState → badOperand →
      hostWrite 0x00#7 c s = .next (s.recorded .invalidParameter))

/-- R186: an error is recorded where ERR is NONE, a later one changes nothing, and no other state changes; and a nonzero ERR
blocks no command: what a command does to everything but ERR does not depend on ERR. -/
def Obligations.ErrorsAreStickyAndBlockNothing : Prop :=
  (∀ (s : State) (c : Word64), commandError s.engine c ≠ .none → ∃ s' : State, hostWrite 0x00#7 c s = .next s' ∧
    (s.engine.err = .none → s'.engine.err = commandError s.engine c) ∧
    (s.engine.err ≠ .none → s' = s) ∧
    { s' with engine := { s'.engine with err := s.engine.err } } = s) ∧
  (∀ (i : Instr) (s : State) (k : ErrCode), ∃ a b : State,
    exec i s = .next a ∧ exec i { s with engine := { s.engine with err := k } } = .next b ∧
    { a with engine := { a.engine with err := .none } } = { b with engine := { b.engine with err := .none } })

/-- R187: ERR is cleared by a successful INIT and by reset, and by nothing else that a step performs. -/
def Obligations.ErrIsClearedByInitAndResetAlone : Prop :=
  (∀ (s : State) (v : Variant) (N : Nat) (s' : State), s.engine.busy = false → 1 ≤ N → N ≤ v.nnMax →
    exec (.init v N) s = .next s' → s'.engine.err = .none) ∧
  (∀ s : State, ∃ s' : State, platformReset s = .next s' ∧ s'.engine.err = .none) ∧
  (∀ (s s' : State) (ev : HostEvent) (rest : List HostEvent) (k : Nat) (e e' : Engine),
    s.requests = ev :: rest → step s = .next s' → s.instances[k]? = some e → s'.instances[k]? = some e' →
    e.err ≠ .none → e'.err = .none → ev = .reset k ∨ ev.creates k e)

/-- R190 (what an atomic model can show of it; log entry 7): while BUSY = 1 a CMD write executes nothing and a DIN write does not change
DIN; each records BUSY_VIOLATION. -/
def Obligations.WritesWhileBusyAreDiscarded : Prop :=
  ∀ (s : State) (x : Word64), s.engine.busy = true →
    hostWrite 0x00#7 x s = .next (s.recorded .busyViolation) ∧
    hostWrite 0x08#7 x s = .next (s.recorded .busyViolation)

/-! ### Registers -/

/-- R37: every field of STATUS, and its reserved bits, as a read returns them, with OUTLEN at most 64 and BUFLEN at most 128
in every state that meets the invariant; a write to it is ignored. -/
def Obligations.StatusHoldsItsFields : Prop :=
  ∀ s : State, s.engine.busy = false →
    (∃ x : Word64, hostRead 0x10#7 s = .next { s with replies := s.replies ++ [x] } ∧
      x.extractLsb' 0 2 = (match s.engine.phase with | .idle => 0#2 | .active => 1#2 | .finalized => 2#2) ∧
      x.getLsbD 2 = (match s.engine.variant with | .blake2b => false | .blake2s => true) ∧
      x.getLsbD 3 = s.engine.busy ∧
      x.extractLsb' 4 4 = 0#4 ∧
      x.extractLsb' 8 3 = (match s.engine.err with
        | .none => 0#3
        | .invalidParameter => 1#3
        | .invalidState => 2#3
        | .illegalCommand => 3#3
        | .busyViolation => 4#3) ∧
      x.extractLsb' 11 5 = 0#5 ∧
      x.extractLsb' 16 7 = s.engine.outlen ∧
      x.extractLsb' 23 9 = 0#9 ∧
      x.extractLsb' 32 8 = BitVec.ofNat 8 s.engine.buf.length ∧
      x.extractLsb' 40 24 = 0#24 ∧
      (s.engine.Inv → (x.extractLsb' 16 7).toNat ≤ 64 ∧ (x.extractLsb' 32 8).toNat = s.engine.buf.length ∧
        s.engine.buf.length ≤ 128)) ∧
    ∀ x : Word64, hostWrite 0x10#7 x s = .next s

/-- R38: T0 and T1 read the low and the high `w` bits of the counter, zero-extended; writes are ignored. -/
def Obligations.CounterRegistersReadTheCounter : Prop :=
  ∀ s : State, s.engine.busy = false →
    let w := match s.engine.variant with | .blake2b => 64 | .blake2s => 32
    hostRead 0x20#7 s = .next { s with replies := s.replies ++ [BitVec.ofNat 64 (s.engine.t.toNat % 2 ^ w)] } ∧
    hostRead 0x28#7 s = .next { s with replies := s.replies ++ [BitVec.ofNat 64 (s.engine.t.toNat / 2 ^ w % 2 ^ w)] } ∧
    ∀ x : Word64, hostWrite 0x20#7 x s = .next s ∧ hostWrite 0x28#7 x s = .next s

/-- R39: byte i of DOUTk is byte 8k+i of the little-endian serialisation of the chaining value where PHASE = FINALIZED and
8k+i < nn, and 0 elsewhere; writes are ignored. -/
def Obligations.DigestRegistersReadTheDigest : Prop :=
  ∀ (s : State) (k : Nat), s.engine.busy = false → k < 8 →
    let wb := match s.engine.variant with | .blake2b => 8 | .blake2s => 4
    (∃ x : Word64, hostRead (BitVec.ofNat 7 (0x40 + 8 * k)) s = .next { s with replies := s.replies ++ [x] } ∧
      ∀ i : Nat, i < 8 → x.extractLsb' (8 * i) 8 =
        if s.engine.phase = .finalized ∧ 8 * k + i < s.engine.outlen.toNat then
          (s.engine.h.toList.getD ((8 * k + i) / wb) 0#64).extractLsb' (8 * ((8 * k + i) % wb)) 8
        else 0#8) ∧
    ∀ x : Word64, hostWrite (BitVec.ofNat 7 (0x40 + 8 * k)) x s = .next s

/-- R53: a read of an unmapped or reserved offset, of CMD or of DIN returns 0 and changes nothing; a write to any offset but
CMD and DIN is ignored and records no error. -/
def Obligations.MeaninglessAccessesAreHarmless : Prop :=
  ∀ (s : State) (off : BitVec 7), off.toNat % 8 = 0 →
    (off ∈ [0x00#7, 0x08#7, 0x18#7, 0x30#7, 0x38#7] →
      hostRead off s = .next { s with replies := s.replies ++ [0#64] }) ∧
    (off ∉ [0x00#7, 0x08#7] → ∀ x : Word64, hostWrite off x s = .next s)

/-- R54: reads have no side effect on any instance, and two reads with no write between them return the same value, given
BUSY = 0. -/
def Obligations.ReadsHaveNoSideEffects : Prop :=
  ∀ (s : State) (off : BitVec 7), off.toNat % 8 = 0 →
    (∃ s' : State, hostRead off s = .next s' ∧ s'.instances = s.instances ∧ s'.requests = s.requests) ∧
    (s.engine.busy = false → ∃ x : Word64,
      runEvents [.read s.before.length off .w64, .read s.before.length off .w64] s =
        .next { s with requests := [], replies := s.replies ++ [x, x] })

/-- R216: while BUSY = 1 a read of STATUS returns 1 in bit 3; its other bits, T0, T1 and DOUTk are a free value (log entry
5), and no instance changes. -/
def Obligations.ReadsWhileBusyAreFree : Prop :=
  ∀ s : State, s.engine.busy = true →
    (∃ x : Word64, hostRead 0x10#7 s = .next { s with replies := s.replies ++ [x], draws := s.draws + 1 } ∧
      x.getLsbD 3 = true ∧ ∀ i, i ≠ 3 → x.getLsbD i = (Config.freeRead s.draws).getLsbD i) ∧
    ∀ off : BitVec 7, off ∈ [0x20#7, 0x28#7, 0x40#7, 0x48#7, 0x50#7, 0x58#7, 0x60#7, 0x68#7, 0x70#7, 0x78#7] →
      hostRead off s =
        .next { s with replies := s.replies ++ [Config.freeRead s.draws], draws := s.draws + 1 }

/-- R148: the DIN write sets the latch in every phase and changes nothing else, but for BUSY_VIOLATION while BUSY = 1; and
the latch keeps its value until the next DIN write or reset. -/
def Obligations.DinIsSetByItsWriteAlone : Prop :=
  (∀ (s : State) (x : Word64), hostWrite 0x08#7 x s =
    .next (if s.engine.busy then s.recorded .busyViolation else { s with engine := { s.engine with din := x } })) ∧
  (∀ (s s' : State) (ev : HostEvent) (rest : List HostEvent) (k : Nat) (e e' : Engine),
    s.requests = ev :: rest → step s = .next s' → s.instances[k]? = some e → s'.instances[k]? = some e' →
    e'.din ≠ e.din → ev = .reset k ∨ ∃ x, ev = .write k 0x08#7 .w64 x)

/-- R35, R40: what a read returns, at any offset and in any phase, is the same for two instances that differ only in what no
read shows: the contents of B, `h` outside FINALIZED, the bytes of `h` at and beyond `nn`, and DIN. -/
def Obligations.HiddenStateIsNotReadable : Prop :=
  ∀ (s : State) (e' : Engine) (off : BitVec 7), off.toNat % 8 = 0 → SameView s.engine e' →
    ∃ (xs : List Word64) (d : Nat),
      hostRead off s = .next { s with replies := xs, draws := d } ∧
      hostRead off { s with engine := e' } = .next { s with engine := e', replies := xs, draws := d }

/-! ### The compression engine -/

/-- R100: ROTR is the rotation to the right; by w - 1 it rotates left by 1 (log entry 15: by 63 at w = 64, by 31 at w = 32);
by half the width it swaps the halves. -/
def Obligations.RotrRotatesToTheRight : Prop :=
  (∀ (w : Nat) (x : BitVec w) (n : Nat), 0 < n → n < w →
    rotr x n = x.rotateRight n ∧ rotr x (w - 1) = x.rotateLeft 1) ∧
  (∀ x : BitVec 64, rotr x 32 = x.extractLsb' 0 32 ++ x.extractLsb' 32 32) ∧
  (∀ x : BitVec 32, rotr x 16 = x.extractLsb' 0 16 ++ x.extractLsb' 16 16) ∧
  rotr 0x0123456789ABCDEF#64 24 = 0xABCDEF0123456789#64

/-- R101, R102, R103, R104: the IVs, the ten schedule rows, the rotation amounts and the round counts the rules list; every
row is a permutation of 0 to 15, round r uses row r mod 10, and IV_s[i] is the high 32 bits of IV_b[i]. -/
def Obligations.TablesAreAsTheRulesDescribe : Prop :=
  params .blake2b = paramsB ∧ params .blake2s = paramsS ∧
  paramsB.iv.toList = [0x6A09E667F3BCC908#64, 0xBB67AE8584CAA73B#64, 0x3C6EF372FE94F82B#64, 0xA54FF53A5F1D36F1#64,
    0x510E527FADE682D1#64, 0x9B05688C2B3E6C1F#64, 0x1F83D9ABFB41BD6B#64, 0x5BE0CD19137E2179#64] ∧
  paramsS.iv.toList = [0x6A09E667#32, 0xBB67AE85#32, 0x3C6EF372#32, 0xA54FF53A#32, 0x510E527F#32, 0x9B05688C#32,
    0x1F83D9AB#32, 0x5BE0CD19#32] ∧
  (paramsB.r1, paramsB.r2, paramsB.r3, paramsB.r4) = (32, 24, 16, 63) ∧
  (paramsS.r1, paramsS.r2, paramsS.r3, paramsS.r4) = (16, 12, 8, 7) ∧
  (sigmaRow 0).toList = [0, 1, 2, 3, 4, 5, 6, 7, 8, 9, 10, 11, 12, 13, 14, 15] ∧
  (sigmaRow 1).toList = [14, 10, 4, 8, 9, 15, 13, 6, 1, 12, 0, 2, 11, 7, 5, 3] ∧
  (sigmaRow 2).toList = [11, 8, 12, 0, 5, 2, 15, 13, 10, 14, 3, 6, 7, 1, 9, 4] ∧
  (sigmaRow 3).toList = [7, 9, 3, 1, 13, 12, 11, 14, 2, 6, 5, 10, 4, 0, 15, 8] ∧
  (sigmaRow 4).toList = [9, 0, 5, 7, 2, 4, 10, 15, 14, 1, 11, 12, 6, 8, 3, 13] ∧
  (sigmaRow 5).toList = [2, 12, 6, 10, 0, 11, 8, 3, 4, 13, 7, 5, 15, 14, 1, 9] ∧
  (sigmaRow 6).toList = [12, 5, 1, 15, 14, 13, 4, 10, 0, 7, 6, 3, 9, 2, 8, 11] ∧
  (sigmaRow 7).toList = [13, 11, 7, 14, 12, 1, 3, 9, 5, 0, 15, 4, 8, 6, 2, 10] ∧
  (sigmaRow 8).toList = [6, 15, 14, 9, 11, 3, 0, 8, 12, 2, 13, 7, 1, 4, 10, 5] ∧
  (sigmaRow 9).toList = [10, 2, 8, 4, 7, 6, 1, 5, 15, 11, 9, 14, 3, 12, 13, 0] ∧
  (∀ r : Nat, sigmaRow r = sigmaRow (r % 10)) ∧
  (∀ r : Fin 12, (sigmaRow r).toList.Nodup) ∧ sigmaRow 10 = sigmaRow 0 ∧ sigmaRow 11 = sigmaRow 1 ∧
  (params .blake2b).rounds = 12 ∧ (params .blake2s).rounds = 10 ∧
  ∀ i : Fin 8, paramsS.iv[i] = (paramsB.iv[i]).extractLsb' 32 32

/-- R105: byte j of the message word m[i] is byte i·(w/8) + j of the block. -/
def Obligations.MessageWordsAreLittleEndian : Prop :=
  ∀ (v : Variant) (M : List Byte) (i : Fin 16) (j : Nat), M.length = v.blockBytes → j < v.wordBits / 8 →
    ((parseBlock v.wordBits M)[i]).extractLsb' (8 * j) 8 = M.getD (i * (v.wordBits / 8) + j) 0#8

/-- R106: G on four distinct indices computes the eight sequential updates at width `w` and leaves every other word. -/
def Obligations.MixingUpdatesFourWords : Prop :=
  ∀ (w : Nat) (P : Params w) (v : Vector (BitVec w) 16) (a b c d : Fin 16) (x y : BitVec w), [a, b, c, d].Nodup →
    let a1 := v[a] + v[b] + x
    let d1 := rotr (v[d] ^^^ a1) P.r1
    let c1 := v[c] + d1
    let b1 := rotr (v[b] ^^^ c1) P.r2
    let a2 := a1 + b1 + y
    let d2 := rotr (d1 ^^^ a2) P.r3
    let c2 := c1 + d2
    let b2 := rotr (b1 ^^^ c2) P.r4
    (mixG P v a b c d x y)[a] = a2 ∧ (mixG P v a b c d x y)[b] = b2 ∧
    (mixG P v a b c d x y)[c] = c2 ∧ (mixG P v a b c d x y)[d] = d2 ∧
    ∀ i : Fin 16, i ∉ [a, b, c, d] → (mixG P v a b c d x y)[i] = v[i]

/-- R107: two calls of G that touch disjoint words of `v` give the same result in either order. -/
def Obligations.DisjointMixingCallsCommute : Prop :=
  ∀ (w : Nat) (P : Params w) (v : Vector (BitVec w) 16) (a b c d a' b' c' d' : Fin 16) (x y x' y' : BitVec w),
    [a, b, c, d, a', b', c', d'].Nodup →
    mixG P (mixG P v a b c d x y) a' b' c' d' x' y' = mixG P (mixG P v a' b' c' d' x' y') a b c d x y

/-- R108: the working vector, word by word. -/
def Obligations.WorkingVectorIsInitialised : Prop :=
  ∀ (w : Nat) (P : Params w) (h : Vector (BitVec w) 8) (t : BitVec (2 * w)) (f : Bool),
    (∀ i : Fin 8, (initVector P h t f)[i.val] = h[i]) ∧
    (∀ i : Fin 4, (initVector P h t f)[i.val + 8] = P.iv[i.val]) ∧
    (initVector P h t f)[12] = P.iv[4] ^^^ BitVec.ofNat w t.toNat ∧
    (initVector P h t f)[13] = P.iv[5] ^^^ BitVec.ofNat w (t.toNat / 2 ^ w) ∧
    (initVector P h t f)[14] = (if f then ~~~ P.iv[6] else P.iv[6]) ∧
    (initVector P h t f)[15] = P.iv[7]

/-- R107, R109, R110: COMPRESS runs rounds 0 to NR-1 in order on the initialised vector, each eight calls of G with the words
its schedule row selects, and XORs both halves of the result into the original chaining value. -/
def Obligations.CompressRunsTheRounds : Prop :=
  ∀ (w : Nat) (P : Params w) (h : Vector (BitVec w) 8) (M : List Byte) (t : BitVec (2 * w)) (f : Bool) (i : Fin 8),
    let m := parseBlock w M
    let round := fun (v : Vector (BitVec w) 16) (r : Nat) =>
      let s := sigmaRow r
      let v := mixG P v 0 4 8 12 m[s[0]] m[s[1]]
      let v := mixG P v 1 5 9 13 m[s[2]] m[s[3]]
      let v := mixG P v 2 6 10 14 m[s[4]] m[s[5]]
      let v := mixG P v 3 7 11 15 m[s[6]] m[s[7]]
      let v := mixG P v 0 5 10 15 m[s[8]] m[s[9]]
      let v := mixG P v 1 6 11 12 m[s[10]] m[s[11]]
      let v := mixG P v 2 7 8 13 m[s[12]] m[s[13]]
      mixG P v 3 4 9 14 m[s[14]] m[s[15]]
    let v := (List.range P.rounds).foldl round (initVector P h t f)
    (compress P h M t f)[i] = h[i] ^^^ v[i.val] ^^^ v[i.val + 8]

/-- R110, R42: the compression that UPDATE and FINAL invoke is COMPRESS with the constants of the variant, on the w-bit words of
`h` and the 2w-bit counter, its words zero-extended to their containers. -/
def Obligations.CompressAtIsTheVariantsCompress : Prop :=
  ∀ (h : Vector Word64 8) (M : List Byte) (t : BitVec 128) (f : Bool) (i : Fin 8),
    (compressAt .blake2b h M t f)[i] = (compress paramsB h M t f)[i] ∧
    (compressAt .blake2s h M t f)[i] =
      ((compress paramsS (Vector.ofFn fun j => h[j].extractLsb' 0 32) M (t.extractLsb' 0 64) f)[i]).setWidth 64

/-- R42: a BLAKE2s compression reads no bit above 31 of a container and no bit above 63 of the counter, and leaves bits
63:32 of every word zero. -/
def Obligations.UpperContainerBitsAreUnused : Prop :=
  ∀ (h h' : Vector Word64 8) (M : List Byte) (t t' : BitVec 128) (f : Bool),
    ((∀ i : Fin 8, h[i].extractLsb' 0 32 = h'[i].extractLsb' 0 32) → t.extractLsb' 0 64 = t'.extractLsb' 0 64 →
      compressAt .blake2s h M t f = compressAt .blake2s h' M t' f) ∧
    ∀ i : Fin 8, ((compressAt .blake2s h M t f)[i]).extractLsb' 32 32 = 0#32

/-! ### Reset, phases and invariants -/

/-- R41: on its reset every state element of an instance takes its reset value and nothing else changes, after which STATUS,
T0, T1 and DOUT0 to DOUT7 read 0; and the machine starts with every instance in that state. -/
def Obligations.ResetGivesTheResetValues : Prop :=
  let e0 : Engine := {
    phase := .idle
    variant := .blake2b
    outlen := 0#7
    h := #v[0#64, 0#64, 0#64, 0#64, 0#64, 0#64, 0#64, 0#64]
    t := 0#128
    buf := []
    err := .none
    busy := false
    din := 0#64 }
  (∀ s : State, platformReset s = .next { s with engine := e0 } ∧
    ∀ off : BitVec 7, off ∈ [0x10#7, 0x20#7, 0x28#7, 0x40#7, 0x48#7, 0x50#7, 0x58#7, 0x60#7, 0x68#7, 0x70#7, 0x78#7] →
      hostRead off { s with engine := e0 } = .next { s with engine := e0, replies := s.replies ++ [0#64] }) ∧
  ∀ (n : Nat) (e : Engine), e ∈ (State.system n).instances → e = e0

/-- The invariant holds right after reset, for every number of instances. -/
def Obligations.ResetMeetsTheInvariants : Prop := State.reset.Inv ∧ ∀ n : Nat, (State.system n).Inv

/-- R24, R28, R32, R42, R146: from every state that meets the invariants of all instances, a step gives one that does. -/
def Obligations.StepKeepsTheInvariants : Prop :=
  ∀ s s' : State, s.Inv → step s = .next s' → s'.Inv

/-- R29: the phase of every instance after a step is the one the table gives; no other transition exists. -/
def Obligations.PhasesFollowTheLifecycle : Prop :=
  ∀ (s s' : State) (ev : HostEvent) (rest : List HostEvent) (k : Nat) (e e' : Engine),
    s.requests = ev :: rest → step s = .next s' → s.instances[k]? = some e → s'.instances[k]? = some e' →
    e'.phase = if k = ev.target then phaseAfter e ev else e.phase

/-- R154: in FINALIZED nothing but a successful INIT and reset changes `h`, OUTLEN, VARIANT or PHASE, so that DOUT0 to DOUT7
read the same. -/
def Obligations.TheDigestIsStable : Prop :=
  ∀ (s s' : State) (ev : HostEvent) (rest : List HostEvent) (k : Nat) (e e' : Engine),
    s.requests = ev :: rest → step s = .next s' → s.instances[k]? = some e → s'.instances[k]? = some e' →
    e.phase = .finalized → ev ≠ .reset k → ¬ ev.creates k e →
    e'.h = e.h ∧ e'.outlen = e.outlen ∧ e'.variant = e.variant ∧ e'.phase = .finalized ∧
    ∀ j : Nat, doutWord e' j = doutWord e j

/-! ### Digests of whole messages -/

/-- R28, R151, R155: after a successful INIT and the absorption of chunks of at most 8 bytes, L bytes in all, the last block,
full or partial, is held back, and `t` is the number of the bytes compressed, modulo `2^(2w)`. -/
def Obligations.TheLastBlockIsHeldBack : Prop :=
  ∀ (s : State) (k : Nat) (e : Engine) (v : Variant) (nn : Nat) (css : List (List Byte)),
    s.instances[k]? = some e → e.busy = false → 1 ≤ nn → nn ≤ v.nnMax → (∀ cs ∈ css, cs.length ≤ 8) →
    ∃ (s' : State) (e' : Engine),
      runEvents (wrCmd k (.init v nn) :: css.flatMap (absorbChunk k)) s = .next s' ∧ s'.instances[k]? = some e' ∧
      e'.phase = .active ∧
      let L := css.flatten.length
      let held := if L = 0 then 0 else (L - 1) % v.blockBytes + 1
      e'.buf = css.flatten.drop (L - held) ∧ e'.buf.length = held ∧
      e'.t.toNat = (L - held) % 2 ^ (2 * v.wordBits)

/-- R150: absorbing a byte string in any split into chunks of 0 to 8 bytes, after the same successful INIT, leaves the same
h, t, |B| and PHASE, and the same digest after FINAL. -/
def Obligations.ChunkingDoesNotMatter : Prop :=
  ∀ (s : State) (k : Nat) (e : Engine) (v : Variant) (nn : Nat) (css css' : List (List Byte)),
    s.instances[k]? = some e → e.busy = false → 1 ≤ nn → nn ≤ v.nnMax →
    (∀ cs ∈ css, cs.length ≤ 8) → (∀ cs ∈ css', cs.length ≤ 8) → css.flatten = css'.flatten →
    ∃ (a b : State) (ea eb : Engine) (fa fb : State),
      runEvents (wrCmd k (.init v nn) :: css.flatMap (absorbChunk k)) s = .next a ∧ a.instances[k]? = some ea ∧
      runEvents (wrCmd k (.init v nn) :: css'.flatMap (absorbChunk k)) s = .next b ∧ b.instances[k]? = some eb ∧
      ea.h = eb.h ∧ ea.t = eb.t ∧ ea.buf.length = eb.buf.length ∧ ea.phase = eb.phase ∧
      runEvents (wrCmd k .final :: (List.range 8).map (rdDout k)) a = .next fa ∧
      runEvents (wrCmd k .final :: (List.range 8).map (rdDout k)) b = .next fb ∧ fa.replies = fb.replies

/-- R152: INIT followed directly by FINAL compresses one all-zero block with t = 0 and f = 1. -/
def Obligations.EmptyInputHasADigest : Prop :=
  ∀ (s : State) (v : Variant) (nn : Nat), s.engine.busy = false → 1 ≤ nn → nn ≤ v.nnMax →
    ∃ s1 s2 : State, exec (.init v nn) s = .next s1 ∧ exec .final s1 = .next s2 ∧
      s2.engine.phase = .finalized ∧ s2.engine.err = .none ∧ s2.engine.t = 0#128 ∧
      s2.engine.h = compressAt v s1.engine.h (List.replicate v.blockBytes 0#8) 0#128 true

/-- R153: in FINALIZED the digest is the first nn bytes of the serialised chaining value, and with nn = NN_MAX all of it. -/
def Obligations.FullLengthDigestIsTheWholeChain : Prop :=
  ∀ e : Engine, e.phase = .finalized → e.outlen.toNat ≤ e.variant.nnMax →
    (List.range e.outlen.toNat).map (digestByte e) = (chainBytes e).take e.outlen.toNat ∧
    (e.outlen.toNat = e.variant.nnMax → (List.range e.outlen.toNat).map (digestByte e) = chainBytes e)

/-- R212: the host's sequence for one digest, INIT, the message absorbed 8 bytes at a time, FINAL, STATUS and DOUT, from any
state in which the instance is not busy, completes; STATUS reads FINALIZED with ERR = 0, and the DOUT registers hold the
first nn bytes of BLAKE2 of the message, each block but the last compressed with f = 0, the last with f = 1, each with
the count of message bytes so far. -/
def Obligations.TheHostSequenceYieldsTheBlake2Digest : Prop :=
  ∀ (s : State) (k : Nat) (e : Engine) (v : Variant) (nn : Nat) (M : List Byte),
    s.instances[k]? = some e → e.busy = false → 1 ≤ nn → nn ≤ v.nnMax →
    ∃ s' : State, runEvents (digestProgram k v nn M) s = .next s' ∧
      s'.replies = s.replies ++
        BitVec.ofNat 64 (2 + (match v with | .blake2b => 0 | .blake2s => 4) + nn * 2 ^ 16) ::
        (List.range ((nn + 7) / 8)).map fun j => leWord 64 (((blake2 v nn M).drop (8 * j)).take 8)

/-- R58, R197: instances share no state. Of any events the interface defines, those on instance k alone decide its end
state: performing only them leaves it exactly as performing all of them does. -/
def Obligations.InstancesAreIndependent : Prop :=
  ∀ (s : State) (evs : List HostEvent) (k : Nat), (∀ ev ∈ evs, ev.accepted s.instances.length = true) →
    ∃ a b : State, runEvents evs s = .next a ∧ runEvents (evs.filter fun ev => ev.target == k) s = .next b ∧
      a.instances[k]? = b.instances[k]?

/-! ### The host's side -/

/-- R162: the host's conversion of a variant name and a length in bits, before INIT. A name that is not the variants' gives no
INIT, and every INIT the host issues has its length in the field. The spelling of the names is an argument (log entry 11). -/
def Obligations.TheHostConvertsBitsToBytes : Prop :=
  (∀ (names : Variant → String) (bits : Nat), names .blake2b ≠ names .blake2s →
    (∀ v : Variant, hostCreate names (names v) bits = (outlenOfBits v bits).map (Instr.init v)) ∧
    ∀ name : String, ((∀ v : Variant, name ≠ names v) → hostCreate names name bits = none) ∧
      ∀ i : Instr, hostCreate names name bits = some i → i.wellFormed = true) ∧
  ∀ (v : Variant) (bits : Nat),
    (bits = 0 → outlenOfBits v bits = some (match v with | .blake2b => 64 | .blake2s => 32)) ∧
    (bits % 8 ≠ 0 → outlenOfBits v bits = none) ∧
    (∀ n, 1 ≤ n → n ≤ 127 → bits = 8 * n → outlenOfBits v bits = some n) ∧
    (127 * 8 < bits → outlenOfBits v bits = none)

/-- R160: HEX is two lower-case digits per byte, the most significant nibble first, in byte order. -/
def Obligations.HexIsTwoLowerCaseDigitsPerByte : Prop :=
  ∀ D : List Byte, (hexChars D).length = 2 * D.length ∧
    ∀ (i : Nat) (b : Byte), D[i]? = some b →
      (hexChars D)[2 * i]? = "0123456789abcdef".toList[b.toNat / 16]? ∧
      (hexChars D)[2 * i + 1]? = "0123456789abcdef".toList[b.toNat % 16]?

/-- R163: a batch reports its results in input order, whatever paths are repeated, and the first error stops it. -/
def Obligations.BatchesReportInInputOrder : Prop :=
  ∀ (f : Nat → Option (List Byte)) (ps : List Nat), digestBatch f [] ps = ps.mapM f
end

