-- ==== Sys2Proof/Laws/State.lean ====
section
/-! SUPPORT. One lemma per field per update of an engine and of the system, so that no later proof unfolds a record
update. -/

namespace Sys2Proof.Machine

/-! ### Recording an error (R186): only ERR can change -/

@[simp] theorem Engine.raise_phase (k : ErrCode) (e : Engine) : (e.raise k).phase = e.phase := by
  unfold Engine.raise; split <;> rfl
@[simp] theorem Engine.raise_variant (k : ErrCode) (e : Engine) : (e.raise k).variant = e.variant := by
  unfold Engine.raise; split <;> rfl
@[simp] theorem Engine.raise_outlen (k : ErrCode) (e : Engine) : (e.raise k).outlen = e.outlen := by
  unfold Engine.raise; split <;> rfl
@[simp] theorem Engine.raise_h (k : ErrCode) (e : Engine) : (e.raise k).h = e.h := by
  unfold Engine.raise; split <;> rfl
@[simp] theorem Engine.raise_t (k : ErrCode) (e : Engine) : (e.raise k).t = e.t := by
  unfold Engine.raise; split <;> rfl
@[simp] theorem Engine.raise_buf (k : ErrCode) (e : Engine) : (e.raise k).buf = e.buf := by
  unfold Engine.raise; split <;> rfl
@[simp] theorem Engine.raise_busy (k : ErrCode) (e : Engine) : (e.raise k).busy = e.busy := by
  unfold Engine.raise; split <;> rfl
@[simp] theorem Engine.raise_din (k : ErrCode) (e : Engine) : (e.raise k).din = e.din := by
  unfold Engine.raise; split <;> rfl
theorem Engine.raise_err (k : ErrCode) (e : Engine) : (e.raise k).err = if e.err = .none then k else e.err := by
  unfold Engine.raise; split <;> rfl

/-- Recording an error as one record update. -/
theorem Engine.raise_eq (k : ErrCode) (e : Engine) :
    e.raise k = { e with err := if e.err = .none then k else e.err } := by
  unfold Engine.raise; split <;> rfl

/-! ### A fresh context (R142) -/

@[simp] theorem Engine.create_phase (v : Variant) (N : Nat) (e : Engine) : (e.create v N).phase = .active := rfl
@[simp] theorem Engine.create_variant (v : Variant) (N : Nat) (e : Engine) : (e.create v N).variant = v := rfl
@[simp] theorem Engine.create_outlen (v : Variant) (N : Nat) (e : Engine) :
    (e.create v N).outlen = BitVec.ofNat 7 N := rfl
@[simp] theorem Engine.create_h (v : Variant) (N : Nat) (e : Engine) : (e.create v N).h = seedChain v N := rfl
@[simp] theorem Engine.create_t (v : Variant) (N : Nat) (e : Engine) : (e.create v N).t = 0#128 := rfl
@[simp] theorem Engine.create_buf (v : Variant) (N : Nat) (e : Engine) : (e.create v N).buf = [] := rfl
@[simp] theorem Engine.create_err (v : Variant) (N : Nat) (e : Engine) : (e.create v N).err = .none := rfl
@[simp] theorem Engine.create_busy (v : Variant) (N : Nat) (e : Engine) : (e.create v N).busy = e.busy := rfl
@[simp] theorem Engine.create_din (v : Variant) (N : Nat) (e : Engine) : (e.create v N).din = e.din := rfl

/-! ### One block compressed (R143) -/

@[simp] theorem Engine.compressOldest_phase (e : Engine) : e.compressOldest.phase = e.phase := rfl
@[simp] theorem Engine.compressOldest_variant (e : Engine) : e.compressOldest.variant = e.variant := rfl
@[simp] theorem Engine.compressOldest_outlen (e : Engine) : e.compressOldest.outlen = e.outlen := rfl
@[simp] theorem Engine.compressOldest_err (e : Engine) : e.compressOldest.err = e.err := rfl
@[simp] theorem Engine.compressOldest_busy (e : Engine) : e.compressOldest.busy = e.busy := rfl
@[simp] theorem Engine.compressOldest_din (e : Engine) : e.compressOldest.din = e.din := rfl
@[simp] theorem Engine.compressOldest_buf (e : Engine) : e.compressOldest.buf = e.buf.drop e.blockBytes := rfl
@[simp] theorem Engine.compressOldest_t (e : Engine) :
    e.compressOldest.t = advanceCounter e.variant e.t e.blockBytes := rfl
@[simp] theorem Engine.compressOldest_h (e : Engine) :
    e.compressOldest.h = compressAt e.variant e.h (e.buf.take e.blockBytes) e.compressOldest.t false := rfl
@[simp] theorem Engine.compressOldest_blockBytes (e : Engine) : e.compressOldest.blockBytes = e.blockBytes := rfl

/-! ### The last block compressed (R144) -/

@[simp] theorem Engine.finish_phase (e : Engine) : e.finish.phase = .finalized := rfl
@[simp] theorem Engine.finish_variant (e : Engine) : e.finish.variant = e.variant := rfl
@[simp] theorem Engine.finish_outlen (e : Engine) : e.finish.outlen = e.outlen := rfl
@[simp] theorem Engine.finish_err (e : Engine) : e.finish.err = e.err := rfl
@[simp] theorem Engine.finish_busy (e : Engine) : e.finish.busy = e.busy := rfl
@[simp] theorem Engine.finish_din (e : Engine) : e.finish.din = e.din := rfl
@[simp] theorem Engine.finish_buf (e : Engine) : e.finish.buf = [] := rfl
@[simp] theorem Engine.finish_t (e : Engine) : e.finish.t = advanceCounter e.variant e.t e.buf.length := rfl
@[simp] theorem Engine.finish_h (e : Engine) :
    e.finish.h = compressAt e.variant e.h (zeroPad e.blockBytes e.buf) e.finish.t true := rfl

/-! ### The system -/

@[simp] theorem State.onEngine_engine (f : Engine → Engine) (s : State) : (s.onEngine f).engine = f s.engine := rfl
@[simp] theorem State.onEngine_before (f : Engine → Engine) (s : State) : (s.onEngine f).before = s.before := rfl
@[simp] theorem State.onEngine_after (f : Engine → Engine) (s : State) : (s.onEngine f).after = s.after := rfl
@[simp] theorem State.onEngine_requests (f : Engine → Engine) (s : State) : (s.onEngine f).requests = s.requests := rfl
@[simp] theorem State.onEngine_replies (f : Engine → Engine) (s : State) : (s.onEngine f).replies = s.replies := rfl
@[simp] theorem State.onEngine_draws (f : Engine → Engine) (s : State) : (s.onEngine f).draws = s.draws := rfl

@[simp] theorem State.reply_engine (x : Word64) (s : State) : (s.reply x).engine = s.engine := rfl
@[simp] theorem State.reply_before (x : Word64) (s : State) : (s.reply x).before = s.before := rfl
@[simp] theorem State.reply_after (x : Word64) (s : State) : (s.reply x).after = s.after := rfl
@[simp] theorem State.reply_requests (x : Word64) (s : State) : (s.reply x).requests = s.requests := rfl
@[simp] theorem State.reply_replies (x : Word64) (s : State) : (s.reply x).replies = s.replies ++ [x] := rfl
@[simp] theorem State.reply_draws (x : Word64) (s : State) : (s.reply x).draws = s.draws := rfl

@[simp] theorem State.draw_engine (s : State) : s.draw.engine = s.engine := rfl
@[simp] theorem State.draw_before (s : State) : s.draw.before = s.before := rfl
@[simp] theorem State.draw_after (s : State) : s.draw.after = s.after := rfl
@[simp] theorem State.draw_requests (s : State) : s.draw.requests = s.requests := rfl
@[simp] theorem State.draw_replies (s : State) : s.draw.replies = s.replies := rfl
@[simp] theorem State.draw_draws (s : State) : s.draw.draws = s.draws + 1 := rfl

/-- The instances after a change of one: the change is seen at the index of `engine` alone. -/
@[simp] theorem State.instances_onEngine (f : Engine → Engine) (s : State) :
    (s.onEngine f).instances = s.before ++ f s.engine :: s.after := rfl
@[simp] theorem State.instances_reply (x : Word64) (s : State) : (s.reply x).instances = s.instances := rfl
@[simp] theorem State.instances_draw (s : State) : s.draw.instances = s.instances := rfl

/-- A read changes no instance (R54). -/
@[simp] theorem State.instances_performRead (off : BitVec 7) (s : State) :
    (s.performRead off).instances = s.instances := by
  unfold State.performRead; split <;> rfl
@[simp] theorem State.performRead_requests (off : BitVec 7) (s : State) :
    (s.performRead off).requests = s.requests := by
  unfold State.performRead; split <;> rfl
@[simp] theorem State.performRead_engine (off : BitVec 7) (s : State) : (s.performRead off).engine = s.engine := by
  unfold State.performRead; split <;> rfl

end Sys2Proof.Machine
end

