-- ==== Sys2Proof/Laws/Engine.lean ====
section
/-! SUPPORT. What the shared operations of an engine can do: a command (R140, R185), UPDATE's loop (R143) and the compression
they call (R42). -/

namespace Sys2Proof.Machine

/-! ### A command either has its effect or records one error -/

/-- A command whose checks pass has its effect (R140). -/
theorem Engine.command_success {check : Engine → ErrCode} {effect : Engine → Engine} {e : Engine}
    (hb : e.busy = false) (hc : check e = .none) : Engine.command check effect e = effect e := by
  simp [Engine.command, hb, hc]

/-- A command that fails a check of its own only records it (R186). -/
theorem Engine.command_failure {check : Engine → ErrCode} {effect : Engine → Engine} {e : Engine}
    (hb : e.busy = false) (hc : check e ≠ .none) : Engine.command check effect e = e.raise (check e) := by
  simp [Engine.command, hb, hc]

/-- A command while BUSY = 1 only records BUSY_VIOLATION (R190). -/
theorem Engine.command_busy {check : Engine → ErrCode} {effect : Engine → Engine} {e : Engine}
    (hb : e.busy = true) : Engine.command check effect e = e.raise .busyViolation := by
  simp [Engine.command, hb]

/-- Everything a command can do. -/
theorem Engine.command_cases (check : Engine → ErrCode) (effect : Engine → Engine) (e : Engine) :
    (e.busy = false ∧ check e = .none ∧ Engine.command check effect e = effect e) ∨
    (∃ k, k ≠ .none ∧ Engine.command check effect e = e.raise k) := by
  cases hb : e.busy with
  | true => exact .inr ⟨.busyViolation, by decide, Engine.command_busy hb⟩
  | false =>
    by_cases hc : check e = .none
    · exact .inl ⟨rfl, hc, Engine.command_success hb hc⟩
    · exact .inr ⟨check e, hc, Engine.command_failure hb hc⟩

/-! ### UPDATE's loop -/

/-- The loop does not run while `|B| ≤ bs` (R143: strictly greater). -/
theorem Engine.drain_of_le (k : Nat) {e : Engine} (h : e.buf.length ≤ e.blockBytes) : Engine.drain k e = e := by
  cases k with
  | zero => rfl
  | succ k => simp [Engine.drain, Nat.not_lt.mpr h]

/-- One iteration of the loop. -/
theorem Engine.drain_of_lt (k : Nat) {e : Engine} (h : e.blockBytes < e.buf.length) :
    Engine.drain (k + 1) e = Engine.drain k e.compressOldest := by
  simp [Engine.drain, h]

theorem Variant.blockBytes_pos (v : Variant) : 0 < v.blockBytes := by cases v <;> decide

/-- Any two bounds of at least `|B|` give the same result: the bound of the loop is never what ends it. -/
theorem Engine.drain_fuel (k : Nat) : ∀ (m : Nat) (e : Engine), e.buf.length ≤ k → e.buf.length ≤ m →
    Engine.drain k e = Engine.drain m e := by
  induction k with
  | zero => intro m e h _; rw [Engine.drain_of_le _ (by omega), Engine.drain_of_le _ (by omega)]
  | succ k ih =>
    intro m e hk hm
    by_cases hb : e.blockBytes < e.buf.length
    · obtain ⟨n, rfl⟩ : ∃ n, m = n + 1 := ⟨m - 1, by omega⟩
      have hp : 0 < e.blockBytes := Variant.blockBytes_pos _
      rw [Engine.drain_of_lt k hb, Engine.drain_of_lt n hb]
      exact ih n _ (by simp; omega) (by simp; omega)
    · rw [Engine.drain_of_le _ (Nat.not_lt.mp hb), Engine.drain_of_le _ (Nat.not_lt.mp hb)]

/-- What the loop leaves alone, and that it ends with `|B| ≤ bs` (R28, R143). -/
theorem Engine.drain_spec (k : Nat) : ∀ e : Engine, e.buf.length ≤ k →
    (Engine.drain k e).phase = e.phase ∧ (Engine.drain k e).variant = e.variant ∧
    (Engine.drain k e).outlen = e.outlen ∧ (Engine.drain k e).err = e.err ∧ (Engine.drain k e).busy = e.busy ∧
    (Engine.drain k e).din = e.din ∧ (Engine.drain k e).buf.length ≤ e.blockBytes ∧
    (0 < e.buf.length → 0 < (Engine.drain k e).buf.length) := by
  induction k with
  | zero =>
    intro e h
    rw [Engine.drain_of_le _ (by omega)]
    exact ⟨rfl, rfl, rfl, rfl, rfl, rfl, by omega, id⟩
  | succ k ih =>
    intro e h
    by_cases hb : e.blockBytes < e.buf.length
    · have hp : 0 < e.blockBytes := Variant.blockBytes_pos _
      rw [Engine.drain_of_lt k hb]
      have := ih e.compressOldest (by simp; omega)
      simp only [Engine.compressOldest_phase, Engine.compressOldest_variant, Engine.compressOldest_outlen,
        Engine.compressOldest_err, Engine.compressOldest_busy, Engine.compressOldest_din,
        Engine.compressOldest_blockBytes, Engine.compressOldest_buf, List.length_drop] at this
      obtain ⟨h1, h2, h3, h4, h5, h6, h7, h8⟩ := this
      exact ⟨h1, h2, h3, h4, h5, h6, h7, fun _ => h8 (by omega)⟩
    · rw [Engine.drain_of_le _ (Nat.not_lt.mp hb)]
      exact ⟨rfl, rfl, rfl, rfl, rfl, rfl, Nat.not_lt.mp hb, id⟩

/-- Everything UPDATE's absorption leaves alone, and the bounds of the buffer it leaves (R28, R143). -/
theorem Engine.absorb_spec (bytes : List Byte) (e : Engine) :
    (e.absorb bytes).phase = e.phase ∧ (e.absorb bytes).variant = e.variant ∧ (e.absorb bytes).outlen = e.outlen ∧
    (e.absorb bytes).err = e.err ∧ (e.absorb bytes).busy = e.busy ∧ (e.absorb bytes).din = e.din ∧
    (e.absorb bytes).buf.length ≤ e.blockBytes ∧
    (0 < (e.buf ++ bytes).length → 0 < (e.absorb bytes).buf.length) :=
  Engine.drain_spec _ { e with buf := e.buf ++ bytes } (Nat.le_refl _)

/-- Absorbing at most what the block still holds only appends. -/
theorem Engine.absorb_of_le {bytes : List Byte} {e : Engine} (h : (e.buf ++ bytes).length ≤ e.blockBytes) :
    e.absorb bytes = { e with buf := e.buf ++ bytes } :=
  Engine.drain_of_le _ h

/-- Absorbing across the end of a block, by less than another block, compresses exactly one block (R143). -/
theorem Engine.absorb_of_lt {bytes : List Byte} {e : Engine} (h : e.blockBytes < (e.buf ++ bytes).length)
    (h2 : (e.buf ++ bytes).length ≤ 2 * e.blockBytes) :
    e.absorb bytes = Engine.compressOldest { e with buf := e.buf ++ bytes } := by
  obtain ⟨n, hn⟩ : ∃ n, (e.buf ++ bytes).length = n + 1 := ⟨(e.buf ++ bytes).length - 1, by omega⟩
  have hb : Engine.blockBytes { e with buf := e.buf ++ bytes } = e.blockBytes := rfl
  rw [Engine.absorb, hn, Engine.drain_of_lt n (by rw [hb]; exact h), Engine.drain_of_le]
  simp only [Engine.compressOldest_buf, Engine.compressOldest_blockBytes, List.length_drop, hb]
  omega

/-! ### The registers of a command in containers (R42) -/

theorem getElem_packWords {w : Nat} (h : Vector (BitVec w) 8) (i : Nat) (hi : i < 8) :
    (packWords h)[i] = h[i].setWidth 64 := by simp [packWords]

theorem getElem_unpackWords (w : Nat) (h : Vector Word64 8) (i : Nat) (hi : i < 8) :
    (unpackWords w h)[i] = h[i].setWidth w := by simp [unpackWords]

/-- Words packed from 32 bits have bits 63:32 zero (R42). -/
theorem packWords_lt (h : Vector (BitVec 32) 8) (i : Fin 8) : (packWords h)[i].toNat < 2 ^ 32 := by
  rw [Fin.getElem_fin, getElem_packWords _ _ i.isLt, BitVec.toNat_setWidth_of_le (by omega)]
  exact (h[i.val]).isLt

/-- A BLAKE2s compression leaves bits 63:32 of every word zero (R42). -/
theorem compressAt_lt (h : Vector Word64 8) (M : List Byte) (t : BitVec 128) (f : Bool) (i : Fin 8) :
    (compressAt .blake2s h M t f)[i].toNat < 2 ^ 32 := packWords_lt _ i

/-- The BLAKE2s seed has bits 63:32 of every word zero (R42). -/
theorem seedChain_lt (N : Nat) (i : Fin 8) : (seedChain .blake2s N)[i].toNat < 2 ^ 32 := packWords_lt _ i

/-- The counter advances modulo `2^(2w)` (R26, R143). -/
theorem advanceCounter_toNat (v : Variant) (t : BitVec 128) (n : Nat) :
    (advanceCounter v t n).toNat = (t.toNat + n) % 2 ^ (2 * v.wordBits) := by
  have hw : 2 * v.wordBits ≤ 128 := by cases v <;> decide
  rw [advanceCounter, BitVec.toNat_setWidth_of_le hw, BitVec.toNat_add, BitVec.toNat_setWidth, BitVec.toNat_ofNat,
    ← Nat.add_mod]

end Sys2Proof.Machine
end

