-- ==== Sys2Proof/Laws/Absorb.lean ====
section
/-! SUPPORT. Absorption depends only on the concatenation of what is absorbed (R150), and not on DIN. -/

namespace Sys2Proof.Machine

/-- `drain` with a bound that is always enough. -/
def Engine.drainAll (e : Engine) : Engine := Engine.drain e.buf.length e

/-- Bytes appended to B, without the loop of R143. -/
def Engine.append (bytes : List Byte) (e : Engine) : Engine := { e with buf := e.buf ++ bytes }

/-- The latch set to `x`. -/
def Engine.setDin (x : Word64) (e : Engine) : Engine := { e with din := x }

theorem Engine.absorb_eq (bytes : List Byte) (e : Engine) : e.absorb bytes = (e.append bytes).drainAll := rfl

theorem Engine.drainAll_of_le {e : Engine} (h : e.buf.length ≤ e.blockBytes) : e.drainAll = e :=
  Engine.drain_of_le _ h

/-- One iteration of the loop, its bound put aside. -/
theorem Engine.drainAll_of_lt {e : Engine} (h : e.blockBytes < e.buf.length) :
    e.drainAll = e.compressOldest.drainAll := by
  have hp : 0 < e.blockBytes := Variant.blockBytes_pos _
  obtain ⟨n, hn⟩ : ∃ n, e.buf.length = n + 1 := ⟨e.buf.length - 1, by omega⟩
  rw [Engine.drainAll, hn, Engine.drain_of_lt n h]
  exact Engine.drain_fuel _ _ _ (by simp; omega) (Nat.le_refl _)

/-- Bytes appended before or after a block is compressed make no difference to it. -/
theorem Engine.compressOldest_append {e : Engine} (bytes : List Byte) (h : e.blockBytes ≤ e.buf.length) :
    (e.append bytes).compressOldest = e.compressOldest.append bytes := by
  have hb : Engine.blockBytes { e with buf := e.buf ++ bytes } = e.blockBytes := rfl
  simp only [Engine.append, Engine.compressOldest, hb]
  rw [List.take_append_of_le_length h, List.drop_append_of_le_length h]

theorem Engine.drainAll_append (bytes : List Byte) (n : Nat) : ∀ e : Engine, e.buf.length ≤ n →
    (e.drainAll.append bytes).drainAll = (e.append bytes).drainAll := by
  induction n with
  | zero => intro e h; rw [Engine.drainAll_of_le (e := e) (by omega)]
  | succ n ih =>
    intro e h
    by_cases hb : e.blockBytes < e.buf.length
    · have hp : 0 < e.blockBytes := Variant.blockBytes_pos _
      have hl : (e.append bytes).blockBytes < (e.append bytes).buf.length := by
        show e.blockBytes < (e.buf ++ bytes).length
        rw [List.length_append]; omega
      rw [Engine.drainAll_of_lt hb, ih _ (by simp; omega), ← Engine.compressOldest_append bytes hb.le,
        ← Engine.drainAll_of_lt hl]
    · rw [Engine.drainAll_of_le (e := e) (by omega)]

/-- Absorbing in two parts is absorbing the whole (R150). -/
theorem Engine.absorb_append (xs ys : List Byte) (e : Engine) : (e.absorb xs).absorb ys = e.absorb (xs ++ ys) := by
  rw [Engine.absorb_eq, Engine.absorb_eq, Engine.absorb_eq, Engine.drainAll_append ys _ _ (Nat.le_refl _)]
  congr 1
  simp [Engine.append]

theorem Engine.absorb_nil {e : Engine} (h : e.buf.length ≤ e.blockBytes) : e.absorb [] = e := by
  rw [Engine.absorb_of_le (by simpa using h)]
  simp

/-- The loop does not read DIN. -/
theorem Engine.drain_setDin (x : Word64) (n : Nat) : ∀ e : Engine,
    Engine.drain n (e.setDin x) = (Engine.drain n e).setDin x := by
  induction n with
  | zero => intro e; rfl
  | succ n ih =>
    intro e
    have h1 : (e.setDin x).blockBytes = e.blockBytes := rfl
    have h2 : (e.setDin x).buf = e.buf := rfl
    simp only [Engine.drain, h1, h2]
    split
    · exact ih e.compressOldest
    · rfl

theorem Engine.absorb_setDin (x : Word64) (bytes : List Byte) (e : Engine) :
    (e.setDin x).absorb bytes = (e.absorb bytes).setDin x :=
  Engine.drain_setDin x _ (e.append bytes)

end Sys2Proof.Machine
end

