-- ==== Sys2Proof/Laws/Bus.lean ====
section
/-! SUPPORT. How one event reaches its instance: selecting an instance, the step that performs an event, and everything a
step can do to the instances (R57, R58, R197). -/

namespace Sys2Proof.Machine

/-- What selecting instance `k` gives: the same instances, with instance `k` in `engine` and every other field as it was. -/
theorem State.select_spec {k : Nat} {s s' : State} (h : State.select k s = some s') :
    s'.instances = s.instances ∧ s.instances[k]? = some s'.engine ∧ s'.before.length = k ∧
    s'.requests = s.requests ∧ s'.replies = s.replies ∧ s'.draws = s.draws := by
  unfold State.select at h
  split at h
  · cases h
  · rename_i e rest hd
    cases h
    have hk : k < s.instances.length := by
      by_contra hk
      rw [List.drop_eq_nil_of_le (by omega)] at hd
      cases hd
    refine ⟨?_, ?_, ?_, rfl, rfl, rfl⟩
    · show s.instances.take k ++ e :: rest = s.instances
      rw [← hd, List.take_append_drop]
    · have := List.getElem?_drop (xs := s.instances) (i := k) (j := 0)
      simpa [hd] using this.symm
    · show (s.instances.take k).length = k
      rw [List.length_take]
      omega

/-- Instance `k` can be selected exactly when it exists. -/
theorem State.select_isSome {k : Nat} {s : State} (h : k < s.instances.length) : ∃ s', State.select k s = some s' := by
  unfold State.select
  split
  · rename_i hd
    have := congrArg List.length hd
    simp at this
    omega
  · exact ⟨_, rfl⟩

theorem State.select_eq_none {k : Nat} {s : State} (h : s.instances.length ≤ k) : State.select k s = none := by
  unfold State.select
  rw [List.drop_eq_nil_of_le h]

/-- Selecting the instance that is in `engine` changes nothing. -/
@[simp] theorem State.select_self (s : State) : State.select s.before.length s = some s := by
  simp [State.select, State.instances]

/-- The instances seen from the one in `engine`. -/
theorem State.instances_getElem? (s : State) : s.instances[s.before.length]? = some s.engine := by
  simp [State.instances]

/-- Changing the instance in `engine` is changing the list of instances at its index. -/
theorem State.instances_onEngine_set (f : Engine → Engine) (s : State) :
    (s.onEngine f).instances = s.instances.set s.before.length (f s.engine) := by
  simp [State.instances]

/-- With no event pending a step changes nothing (R20, R199). -/
theorem step_of_nil {s : State} (h : s.requests = []) : step s = .next s := by
  simp [step, performNext, h]

/-- A step performs the next event on its instance. -/
theorem step_of_cons {s s0 : State} {ev : HostEvent} {rest : List HostEvent} (h : s.requests = ev :: rest)
    (hs : State.select ev.target { s with requests := rest } = some s0) : step s = perform ev s0 := by
  simp [step, performNext, h, hs]

/-- An event on an instance that does not exist faults. -/
theorem step_of_missing {s : State} {ev : HostEvent} {rest : List HostEvent} (h : s.requests = ev :: rest)
    (hk : s.instances.length ≤ ev.target) : step s = .fault .noSuchInstance := by
  have : State.select ev.target { s with requests := rest } = none := State.select_eq_none hk
  simp [step, performNext, h, this]

/-- An event on the instance in `engine`. -/
theorem step_withEvent {s : State} {ev : HostEvent} (h : ev.target = s.before.length) :
    step (s.withEvent ev) = perform ev s := by
  refine step_of_cons (rest := s.requests) rfl ?_
  rw [h]
  exact State.select_self s

theorem hostWrite_eq (off : BitVec 7) (x : Word64) (s : State) :
    hostWrite off x s = perform (.write s.before.length off .w64 x) s := step_withEvent rfl

theorem hostRead_eq (off : BitVec 7) (s : State) :
    hostRead off s = perform (.read s.before.length off .w64) s := step_withEvent rfl

/-- The word that `withFetchWord` places is what the next step runs. -/
theorem step_withFetchWord (s : State) (nbits w : Nat) :
    step (s.withFetchWord nbits w) = commandWrite (BitVec.ofNat 64 (w % 2 ^ nbits)) s := by
  have : step (s.withFetchWord nbits w) = perform (cmdWriteEvent (BitVec.ofNat 64 (w % 2 ^ nbits)) s) s :=
    step_withEvent (ev := cmdWriteEvent _ s) rfl
  rw [this]
  rfl

/-- A command is one change of the instance in `engine` (R140, R186). -/
def execEffect (i : Instr) : Engine → Engine :=
  match i with
  | .init v N => Engine.command (initCheck v N) (Engine.create v N)
  | .update n => Engine.command (updateCheck n) (fun e => e.absorb (dinBytes n e.din))
  | .final => Engine.command finalCheck Engine.finish

theorem exec_eq (i : Instr) (s : State) : exec i s = .next (s.onEngine (execEffect i)) := by
  cases i <;> rfl

/-- What a CMD write of `c` does to its instance (R140). -/
def commandEffect (c : Word64) (e : Engine) : Engine :=
  match decode c with
  | .command i => execEffect i e
  | .illegal _ => if e.busy then e.raise .busyViolation else e.raise .illegalCommand

theorem commandWrite_eq (c : Word64) (s : State) : commandWrite c s = .next (s.onEngine (commandEffect c)) := by
  unfold commandWrite commandEffect
  cases decode c with
  | command i => exact exec_eq i s
  | illegal r => rfl

/-- Everything a CMD write can do (R188): the error that `commandError` names is recorded, or the command has its effect. -/
theorem commandEffect_spec (e : Engine) (c : Word64) :
    (commandError e c ≠ .none → commandEffect c e = e.raise (commandError e c)) ∧
    (commandError e c = .none → e.busy = false ∧
      ((∃ v N, decode c = .command (.init v N) ∧ 1 ≤ N ∧ N ≤ v.nnMax ∧ commandEffect c e = e.create v N) ∨
       (∃ n, decode c = .command (.update n) ∧ e.phase = .active ∧ n ≤ 8 ∧
         commandEffect c e = e.absorb (dinBytes n e.din)) ∨
       (decode c = .command .final ∧ e.phase = .active ∧ commandEffect c e = e.finish))) := by
  unfold commandError commandEffect
  cases decode c with
  | illegal r => cases hb : e.busy <;> simp
  | command i =>
    cases hb : e.busy with
    | true => cases i <;> simp [execEffect, Engine.command, hb]
    | false =>
      cases i <;> simp [execEffect, Engine.command, hb, initCheck, updateCheck, finalCheck, outlenAccepted,
        nbytesAccepted] <;> grind

/-- The offsets of the two writable registers (R51). -/
theorem regAt_eq_cmd (off : BitVec 7) : regAt off = .cmd ↔ off = 0x00#7 := by revert off; decide

theorem regAt_eq_din (off : BitVec 7) : regAt off = .din ↔ off = 0x08#7 := by revert off; decide

/-- What an event does to its instance. -/
def eventEffect (ev : HostEvent) (e : Engine) : Engine :=
  match ev with
  | .reset _ => Engine.reset
  | .read _ _ _ => e
  | .write _ off _ x => if regAt off = .cmd then commandEffect x e else e.writeReg x (regAt off)

/-- Everything an event can do to the system: one change of the instance in `engine`, and nothing pending is added. -/
theorem perform_next {ev : HostEvent} {s s' : State} (h : perform ev s = .next s') :
    s'.instances = s.instances.set s.before.length (eventEffect ev s.engine) ∧ s'.requests = s.requests := by
  cases ev with
  | reset k =>
    cases h
    exact ⟨State.instances_onEngine_set _ _, rfl⟩
  | read k off width =>
    simp only [perform] at h
    split at h
    · cases h
      refine ⟨?_, State.performRead_requests off s⟩
      rw [State.instances_performRead]
      simp [eventEffect, State.instances]
    · cases h
  | write k off width x =>
    simp only [perform] at h
    split at h
    · split at h
      · next hc =>
        rw [commandWrite_eq] at h
        cases h
        refine ⟨?_, rfl⟩
        rw [State.instances_onEngine_set, eventEffect, if_pos hc]
      · next hc =>
        cases h
        refine ⟨?_, rfl⟩
        rw [State.instances_onEngine_set, eventEffect, if_neg hc]
    · cases h

/-- Everything a step with an event pending can do to the instances: instance `k` of the event changes by its effect, no
other instance changes, and the event is taken from the pending ones (R57, R58). -/
theorem step_next {s s' : State} {ev : HostEvent} {rest : List HostEvent} (hr : s.requests = ev :: rest)
    (h : step s = .next s') : ∃ e, s.instances[ev.target]? = some e ∧
      s'.instances = s.instances.set ev.target (eventEffect ev e) ∧ s'.requests = rest := by
  by_cases hk : ev.target < s.instances.length
  · obtain ⟨s0, h0⟩ := State.select_isSome (s := { s with requests := rest }) (k := ev.target) hk
    obtain ⟨h1, h2, h3, h4, -, -⟩ := State.select_spec h0
    rw [step_of_cons hr h0] at h
    obtain ⟨h5, h6⟩ := perform_next h
    refine ⟨s0.engine, h2, ?_, h6.trans h4⟩
    rw [h5, h1, h3]
    rfl
  · rw [step_of_missing hr (Nat.not_lt.mp hk)] at h
    cases h

/-- The same, seen at one instance. -/
theorem step_next_at {s s' : State} {ev : HostEvent} {rest : List HostEvent} {k : Nat} {e e' : Engine}
    (hr : s.requests = ev :: rest) (h : step s = .next s') (he : s.instances[k]? = some e)
    (he' : s'.instances[k]? = some e') : e' = if k = ev.target then eventEffect ev e else e := by
  obtain ⟨e0, h0, h1, -⟩ := step_next hr h
  rw [h1] at he'
  by_cases hk : k = ev.target
  · subst hk
    rw [h0] at he
    cases he
    obtain ⟨hlt, -⟩ := List.getElem?_eq_some_iff.mp h0
    rw [List.getElem?_set_self hlt] at he'
    cases he'
    simp
  · rw [List.getElem?_set_ne (Ne.symm hk), he] at he'
    cases he'
    simp [hk]

end Sys2Proof.Machine
end

