-- ==== Sys2Proof/Laws/Operands.lean ====
section
/-! SUPPORT. Byte order (R10, R55): the bytes of a little-endian word, and the bytes UPDATE takes from a packed chunk. -/

namespace Sys2Proof.Machine

/-- Byte `i` of a little-endian word is byte `i` of the sequence it was made from, and 0 beyond its end (R10). -/
theorem leWord_byte {w : Nat} (hw : 8 ∣ w) (L : List Byte) :
    ∀ i, 8 * i < w → (leWord w L).extractLsb' (8 * i) 8 = L.getD i 0#8 := by
  obtain ⟨m, rfl⟩ := hw
  induction L with
  | nil =>
    intro i _
    apply BitVec.eq_of_getLsbD_eq
    simp [leWord]
  | cons b L ih =>
    intro i hi
    apply BitVec.eq_of_getLsbD_eq
    intro k hk
    have hlt : 8 * i + k < 8 * m := by omega
    rw [BitVec.getLsbD_extractLsb']
    simp only [leWord, BitVec.getLsbD_or, BitVec.getLsbD_shiftLeft, BitVec.getLsbD_setWidth, hk, hlt, decide_true,
      Bool.true_and]
    cases i with
    | zero => simp [hk]
    | succ i =>
      have h := congrArg (fun x => x.getLsbD k) (ih i (by omega))
      simp only [BitVec.getLsbD_extractLsb', hk, decide_true, Bool.true_and] at h
      rw [List.getD_cons_succ, ← h, BitVec.getLsbD_of_ge b _ (by omega), show 8 * (i + 1) + k - 8 = 8 * i + k by omega]
      simp [show ¬ 8 * (i + 1) + k < 8 by omega]

/-- A chunk of at most 8 bytes packed into DIN (R80) is what UPDATE takes from it (R73). -/
theorem dinBytes_leWord (L : List Byte) (h : L.length ≤ 8) : dinBytes L.length (leWord 64 L) = L := by
  apply List.ext_getElem
  · simp [dinBytes, leBytes]
  · intro i h1 h2
    simp only [dinBytes, leBytes, List.getElem_map, List.getElem_range]
    rw [leWord_byte (by decide) L i (by omega)]
    simp [h2]

end Sys2Proof.Machine
end

