-- ==== Sys2Proof/Laws/PerInstr.lean ====
section
/-! SUPPORT. Statements about every command, one lemma per constructor of `Instr`: `LegalWord` says that the word of a
well-formed command has bits 63:16 zero (R70) and its opcode in bits 3:0 (R71, R75). -/

namespace Sys2Proof.Laws.LegalWord

/-- The OP value of each command (R75). -/
def opcode : Instr → BitVec 4
  | .init _ _ => 1#4
  | .update _ => 2#4
  | .final => 3#4

/-- R70, R71: for operands that fit their fields, bits 63:16 are zero and bits 3:0 are OP. -/
def Statement (i : Instr) : Prop :=
  i.wellFormed = true → (encode i).extractLsb' 16 48 = 0#48 ∧ opField (encode i) = opcode i

/-- A number that fits a field of `k` bits, as a word and as that field. -/
theorem ofNat_of_fits {k n : Nat} (h : n < 2 ^ k) (hk : k ≤ 64) : BitVec.ofNat 64 n = (BitVec.ofNat k n).setWidth 64 := by
  apply BitVec.eq_of_toNat_eq
  rw [BitVec.toNat_setWidth_of_le hk, BitVec.toNat_ofNat, BitVec.toNat_ofNat, Nat.mod_eq_of_lt h,
    Nat.mod_eq_of_lt (Nat.lt_of_lt_of_le h (Nat.pow_le_pow_right (by decide) hk))]

theorem init (v : Variant) (outlen : Nat) : Statement (.init v outlen) := by
  intro h
  rw [encode, ofNat_of_fits (k := 7) (of_decide_eq_true h) (by decide)]
  constructor <;> apply BitVec.eq_of_getLsbD_eq <;> intro i hi
  · simp only [BitVec.getLsbD_extractLsb', BitVec.getLsbD_or, BitVec.getLsbD_shiftLeft, BitVec.getLsbD_setWidth]
    rw [BitVec.getLsbD_of_ge (BitVec.ofNat 7 outlen) _ (by omega), BitVec.getLsbD_of_ge v.tag _ (by omega)]
    interval_cases i <;> decide
  · interval_cases i <;> cases v <;> simp [opField, opcode, Variant.tag]

theorem update (nbytes : Nat) : Statement (.update nbytes) := by
  intro h
  rw [encode, ofNat_of_fits (k := 4) (of_decide_eq_true h) (by decide)]
  constructor <;> apply BitVec.eq_of_getLsbD_eq <;> intro i hi
  · simp only [BitVec.getLsbD_extractLsb', BitVec.getLsbD_or, BitVec.getLsbD_shiftLeft, BitVec.getLsbD_setWidth]
    rw [BitVec.getLsbD_of_ge (BitVec.ofNat 4 nbytes) _ (by omega)]
    interval_cases i <;> decide
  · interval_cases i <;> simp [opField, opcode]

theorem final : Statement .final := fun _ => ⟨by decide, by decide⟩

end Sys2Proof.Laws.LegalWord
end

