-- ==== Sys2Proof/Laws/Run.lean ====
section
/-! SUPPORT. Runs of several steps: a run cut in two, and a run seen event by event. -/

namespace Sys2Proof.Machine

@[simp] theorem run_zero (s : State) : run 0 s = .next s := rfl

theorem run_succ (n : Nat) (s : State) :
    run (n + 1) s = match step s with
      | .next s' => run n s'
      | .fault r => .fault r
      | .refused r => .refused r := rfl

/-- One step of the host's run of any machine. -/
theorem coreRun_succ (M : Host.Core) (n : Nat) (s : M.State) :
    M.run (n + 1) s = match M.step s with
      | .next s' => M.run n s'
      | .fault r => .fault r
      | .refused r => .refused r := rfl

theorem coreRun_next (M : Host.Core) {n : Nat} {s s' : M.State} (h : M.step s = .next s') :
    M.run (n + 1) s = M.run n s' := by rw [coreRun_succ, h]

theorem coreRun_fault (M : Host.Core) {n : Nat} {s : M.State} {r : M.Fault} (h : M.step s = .fault r) :
    M.run (n + 1) s = .fault r := by rw [coreRun_succ, h]

theorem coreRun_refused (M : Host.Core) {n : Nat} {s : M.State} {r : M.Refusal} (h : M.step s = .refused r) :
    M.run (n + 1) s = .refused r := by rw [coreRun_succ, h]

/-- `run` is the host's `Host.Core.run` of this machine. -/
theorem run_eq_core (n : Nat) (s : State) : Host.Core.run Sys2Proof.core n s = run n s := by
  induction n generalizing s with
  | zero => rfl
  | succ n ih =>
    rw [run_succ]
    cases h : step s with
    | next s' => exact (coreRun_next Sys2Proof.core h).trans (ih s')
    | fault r => exact coreRun_fault Sys2Proof.core h
    | refused r => exact coreRun_refused Sys2Proof.core h

theorem run_succ_of_next {n : Nat} {s s' : State} (h : step s = .next s') : run (n + 1) s = run n s' := by
  rw [run_succ, h]

/-- A run of `a + b` steps is a run of `a` steps and then one of `b`. -/
theorem run_add {a b : Nat} {s s' : State} (h : run a s = .next s') : run (a + b) s = run b s' := by
  induction a generalizing s with
  | zero => cases h; rw [Nat.zero_add]
  | succ a ih =>
    rw [Nat.succ_add, run_succ]
    rw [run_succ] at h
    cases h1 : step s with
    | next s1 => rw [h1] at h; exact ih h
    | fault r => rw [h1] at h; cases h
    | refused r => rw [h1] at h; cases h

/-! ### Runs of events the interface defines -/

theorem HostEvent.target_lt {ev : HostEvent} {N : Nat} (h : ev.accepted N = true) : ev.target < N := by
  cases ev <;> simp_all [HostEvent.accepted, HostEvent.target]

/-- An event the interface defines is performed. -/
theorem perform_of_accepted {ev : HostEvent} {N : Nat} (h : ev.accepted N = true) (s : State) :
    ∃ s', perform ev s = .next s' := by
  cases ev with
  | reset k => exact ⟨_, rfl⟩
  | read k off width =>
    simp only [HostEvent.accepted, Bool.and_eq_true] at h
    exact ⟨s.performRead off, by simp [perform, h.2]⟩
  | write k off width x =>
    simp only [HostEvent.accepted, Bool.and_eq_true] at h
    simp only [perform, h.2, if_true, commandWrite_eq]
    split <;> exact ⟨_, rfl⟩

theorem step_of_accepted {s : State} {ev : HostEvent} {rest : List HostEvent} (hr : s.requests = ev :: rest)
    (h : ev.accepted s.instances.length = true) : ∃ s', step s = .next s' := by
  obtain ⟨s0, h0⟩ := State.select_isSome (s := { s with requests := rest }) (k := ev.target) (HostEvent.target_lt h)
  rw [step_of_cons hr h0]
  exact perform_of_accepted h s0

/-- What a sequence of events does to instance `k`: those on it, in their order. -/
def eventsEffect (k : Nat) (evs : List HostEvent) (e : Engine) : Engine :=
  evs.foldl (fun e ev => if ev.target = k then eventEffect ev e else e) e

/-- What a run of defined events does to every instance. -/
theorem run_of_accepted (evs : List HostEvent) : ∀ s : State, s.requests = evs →
    (∀ ev ∈ evs, ev.accepted s.instances.length = true) →
    ∃ s', run evs.length s = .next s' ∧ s'.requests = [] ∧
      ∀ k, s'.instances[k]? = (s.instances[k]?).map (eventsEffect k evs) := by
  induction evs with
  | nil => intro s hr _; exact ⟨s, rfl, hr, fun k => by unfold eventsEffect; simp⟩
  | cons ev evs ih =>
    intro s hr h
    obtain ⟨s1, h1⟩ := step_of_accepted hr (h ev (by simp))
    obtain ⟨e, he, hi, hq⟩ := step_next hr h1
    obtain ⟨s', h3, h4, h5⟩ := ih s1 hq fun ev' hev => by
      rw [hi, List.length_set]
      exact h ev' (by simp [hev])
    refine ⟨s', (run_succ_of_next h1).trans h3, h4, fun k => ?_⟩
    rw [h5, hi]
    by_cases hk : k = ev.target
    · subst hk
      obtain ⟨hlt, -⟩ := List.getElem?_eq_some_iff.mp he
      rw [List.getElem?_set_self hlt, he]
      simp [eventsEffect]
    · rw [List.getElem?_set_ne (Ne.symm hk)]
      congr 1
      funext e
      simp [eventsEffect, Ne.symm hk]

/-! ### A run does not see the events after it -/

theorem select_extend {k : Nat} {s s0 : State} (h : State.select k s = some s0) (more : List HostEvent) :
    State.select k { s with requests := s.requests ++ more } = some { s0 with requests := s0.requests ++ more } := by
  unfold State.select at h ⊢
  have e : State.instances { s with requests := s.requests ++ more } = s.instances := rfl
  rw [e]
  split at h
  · cases h
  · cases h; rfl

theorem perform_extend {ev : HostEvent} {s s' : State} (h : perform ev s = .next s') (more : List HostEvent) :
    perform ev { s with requests := s.requests ++ more } = .next { s' with requests := s'.requests ++ more } := by
  cases ev with
  | reset => cases h; rfl
  | read k off width =>
    simp only [perform] at h ⊢
    split at h
    · next ha =>
      cases h
      rw [if_pos ha]
      simp only [State.performRead]
      split <;> rfl
    · cases h
  | write k off width x =>
    simp only [perform, commandWrite_eq] at h ⊢
    split at h
    · next ha =>
      rw [if_pos ha]
      split at h
      · next hc => rw [if_pos hc]; cases h; rfl
      · next hc => rw [if_neg hc]; cases h; rfl
    · cases h

theorem run_extend (more evs : List HostEvent) : ∀ s s' : State, s.requests = evs → run evs.length s = .next s' →
    run evs.length { s with requests := evs ++ more } = .next { s' with requests := s'.requests ++ more } := by
  induction evs with
  | nil =>
    intro s s' hr h
    cases h
    show Host.Outcome.next _ = _
    rw [hr]
  | cons ev evs ih =>
    intro s s' hr h
    rw [List.length_cons, run_succ] at h
    cases hs : step s with
    | next s1 =>
      rw [hs] at h
      obtain ⟨-, -, -, hq⟩ := step_next hr hs
      have hstep : step { s with requests := ev :: evs ++ more } = .next { s1 with requests := evs ++ more } := by
        by_cases hk : ev.target < s.instances.length
        · obtain ⟨s0, h0⟩ := State.select_isSome (s := { s with requests := evs }) (k := ev.target) hk
          rw [step_of_cons hr h0] at hs
          refine (step_of_cons (s := { s with requests := ev :: evs ++ more }) (rest := evs ++ more) rfl
            (select_extend h0 more)).trans ?_
          rw [perform_extend hs more, hq]
        · rw [step_of_missing hr (Nat.not_lt.mp hk)] at hs
          cases hs
      exact (run_succ_of_next hstep).trans (ih s1 s' hq h)
    | fault r => rw [hs] at h; cases h
    | refused r => rw [hs] at h; cases h

end Sys2Proof.Machine
end

