-- ==== Sys2Proof/Tests/Slice0.lean ====
section
/-! SUPPORT. Tests of single steps and operations, with expected values from spec/30_encoding.md and spec/95_test_vectors.md,
the well-formedness smoke test, and for every statement of Obligations.lean that has hypotheses a state and operands that
meet them. -/

namespace Sys2Proof.Tests

open Sys2Proof Sys2Proof.Machine

/-! ### Helpers -/

/-- A system of two instances, the first with these events pending. -/
def two (e : Engine) (evs : List HostEvent) : State where
  before := []
  engine := e
  after := [Engine.reset]
  requests := evs
  replies := []
  draws := 0

/-- A context with digest length `nn`, `n` zero bytes buffered and every other field as at reset. -/
def ctx (p : Phase) (v : Variant) (nn n : Nat) : Engine :=
  { Engine.reset with phase := p, variant := v, outlen := BitVec.ofNat 7 nn, buf := List.replicate n 0#8 }

/-- An instance with BUSY = 1. -/
def busyEngine : Engine := { Engine.reset with busy := true }

/-- STATUS of the instance in `engine` after a step that completes. -/
def statusAfter : Outcome → Option Word64
  | .next s => some (statusWord s.engine)
  | .fault _ => none
  | .refused _ => none

/-- T0 after a step that completes. -/
def t0After : Outcome → Option Word64
  | .next s => some (t0Word s.engine)
  | .fault _ => none
  | .refused _ => none

/-- DOUT0 after a step that completes. -/
def dout0After : Outcome → Option Word64
  | .next s => some (doutWord s.engine 0)
  | .fault _ => none
  | .refused _ => none

/-- The replies after a step that completes. -/
def repliesAfter : Outcome → Option (List Word64)
  | .next s => some s.replies
  | .fault _ => none
  | .refused _ => none

/-! ### Well-formedness: each check refuses an ill-formed term -/

theorem test_outlen_must_fit_seven_bits : (Instr.init .blake2b 128).wellFormed = false := by decide
theorem test_nbytes_must_fit_four_bits : (Instr.update 16).wellFormed = false := by decide

/-! ### Decoding: words written bit by bit from R71 -/

/-- R71, format I: OUTLEN = 1000000 in bits 14:8, VARIANT = 0 in bit 4, OP = 0001. -/
theorem test_decode_init_b : decode 0b0000000000000000000000000000000000000000000000000100000000000001#64 =
    .command (.init .blake2b 64) := by decide

/-- R71, format I: OUTLEN = 0100000, VARIANT = 1, OP = 0001. -/
theorem test_decode_init_s : decode 0b0000000000000000000000000000000000000000000000000010000000010001#64 =
    .command (.init .blake2s 32) := by decide

/-- R71, format U: NBYTES = 1001 in bits 11:8, OP = 0010. -/
theorem test_decode_update : decode 0b0000000000000000000000000000000000000000000000000000100100000010#64 =
    .command (.update 9) := by decide

/-- R71, format F: OP = 0011. -/
theorem test_decode_final : decode 0b0000000000000000000000000000000000000000000000000000000000000011#64 =
    .command .final := by decide

/-- R71: bit 15 is fixed to 0 in format I; spec/95_test_vectors.md E13. -/
theorem test_decode_reserved_bit : decode 0x000000000000C001#64 = .illegal .reservedBits := by decide

/-- R79: the encodings of `init.s 16` and `update 3`, from R81 and R80. -/
theorem test_encode : encode (.init .blake2s 16) = 0x1011#64 ∧ encode (.update 3) = 0x302#64 := by decide

/-- R79's formula on operands too large for their fields (log entry 16): a fixed bit is set and the word is Illegal. -/
theorem test_encode_out_of_range : encode (.init .blake2b 130) = 0x8201#64 ∧
    decode (encode (.init .blake2b 130)) = .illegal .reservedBits ∧
    decode (encode (.update 16)) = .illegal .reservedBits := by decide

theorem test_decodeTableWord : decodeTableWord 64 0x1401 = some (.init .blake2b 20) ∧ decodeTableWord 64 4 = none := by
  decide

/-! ### Commands: spec/95_test_vectors.md sections 4 and 5, from reset -/

/-- `init.s 32`. -/
theorem test_init : statusAfter (step (State.reset.withFetchWord 64 0x2011)) = some 0x0000000000200005#64 := by decide

/-- E7: the BLAKE2b maximum is not legal for BLAKE2s. -/
theorem test_init_rejects : statusAfter (step (State.reset.withFetchWord 64 0x4011)) = some 0x0000000000000100#64 := by
  decide

/-- The ninth command of the example of R143: BUFLEN goes from 64 to 1. -/
theorem test_update : statusAfter (exec (.update 1) (two (ctx .active .blake2s 32 64) [])) =
    some 0x0000000100200005#64 := by decide

/-- E8: `update 9` is rejected and the context kept. -/
theorem test_update_rejects : statusAfter (exec (.update 9) (two (ctx .active .blake2b 64 0) [])) =
    some 0x0000000000400101#64 := by decide

/-- BLAKE2s-256("abc"): DOUT0 (spec/95_test_vectors.md 4.2). -/
theorem test_final : dout0After (exec .final (two { ctx .active .blake2s 32 0 with
    h := #v[0x6B08E647#64, 0xBB67AE85#64, 0x3C6EF372#64, 0xA54FF53A#64, 0x510E527F#64, 0x9B05688C#64, 0x1F83D9AB#64,
      0x5BE0CD19#64]
    buf := [0x61#8, 0x62#8, 0x63#8] } [])) = some 0xE2147C328C5E8C50#64 := by decide +kernel

/-- E10: FINAL in FINALIZED. -/
theorem test_final_rejects : statusAfter (exec .final (two (ctx .finalized .blake2b 64 0) [])) =
    some 0x0000000000400202#64 := by decide

/-- E12: an illegal word in FINALIZED. -/
theorem test_illegal_word : statusAfter (hostWrite 0x00#7 0#64 (two (ctx .finalized .blake2b 64 0) [])) =
    some 0x0000000000400302#64 := by decide

/-- E19: CMD, DIN and the reserved offset 0x18 read 0. -/
theorem test_reads_of_nothing : repliesAfter (hostRead 0x00#7 (two (ctx .active .blake2b 64 3) [])) = some [0#64] ∧
    repliesAfter (hostRead 0x08#7 (two (ctx .active .blake2b 64 3) [])) = some [0#64] ∧
    repliesAfter (hostRead 0x18#7 (two (ctx .active .blake2b 64 3) [])) = some [0#64] := by decide

/-! ### The compression engine: spec/95_test_vectors.md section 3 -/

theorem test_rotr : rotr 0x0123456789ABCDEF#64 63 = 0x02468ACF13579BDE#64 ∧ rotr 0x01234567#32 7 = 0xCE02468A#32 := by
  decide

/-- G of BLAKE2b on (1, 2, 3, 4, 5, 6). -/
theorem test_mixG_b :
    let v := mixG paramsB #v[1, 0, 0, 0, 2, 0, 0, 0, 3, 0, 0, 0, 4, 0, 0, 0] 0 4 8 12 5 6
    v[0] = 0x0000010000000C0E#64 ∧ v[4] = 0x181C021802181806#64 ∧ v[8] = 0x0C0E000C010C0003#64 ∧
    v[12] = 0x0C0E0000010C0000#64 := by decide

/-- G of BLAKE2s on all ones. -/
theorem test_mixG_s :
    let o := 0xFFFFFFFF#32
    let v := mixG paramsS #v[o, 0, 0, 0, o, 0, 0, 0, o, 0, 0, 0, o, 0, 0, 0] 0 4 8 12 o o
    v[0] = 0x000FFFDC#32 ∧ v[4] = 0x3DB81BE4#32 ∧ v[8] = 0xDC020DFE#32 ∧ v[12] = 0xDC000DFF#32 := by decide

/-- VINIT of BLAKE2s with t = 3 and f = 1. -/
theorem test_initVector :
    let v := initVector paramsS paramsS.iv 3#64 true
    v[12] = 0x510E527C#32 ∧ v[13] = 0x9B05688C#32 ∧ v[14] = 0xE07C2654#32 ∧ v[15] = 0x5BE0CD19#32 := by decide

/-- Round 0 of the BLAKE2b "abc" block. -/
theorem test_mixRound :
    (mixRound paramsB (initVector paramsB (paramsB.iv.set 0 0x6A09E667F2BDC948#64) 3#128 true)
      (parseBlock 64 (zeroPad 128 [0x61#8, 0x62#8, 0x63#8])) 0)[0] = 0x86B7C1568029BB79#64 := by decide +kernel

/-- The carry into t1, and the wraps (section 3.5). -/
theorem test_advanceCounter : advanceCounter .blake2b 0xFFFFFFFFFFFFFF80#128 128 = 0x10000000000000000#128 ∧
    advanceCounter .blake2b (0#128 - 128#128) 128 = 0#128 ∧
    advanceCounter .blake2s 0xFFFFFFFFFFFFFFC0#128 64 = 0#128 := by decide

/-- T0 and T1 of BLAKE2s (R38). -/
theorem test_t1_of_blake2s : t0Word { ctx .active .blake2s 32 0 with t := 0x123456789ABCDEF0#128 } = 0x9ABCDEF0#64 ∧
    t1Word { ctx .active .blake2s 32 0 with t := 0x123456789ABCDEF0#128 } = 0x12345678#64 := by decide

/-! ### The host's side -/

/-- R80: `absorb "abc"`. -/
theorem test_absorb : absorbProgram 0 [0x61#8, 0x62#8, 0x63#8] =
    [.write 0 0x08#7 .w64 0x636261#64, .write 0 0x00#7 .w64 0x302#64] := by decide

/-- R162: a bad variant name, and 0 bits. -/
theorem test_hostCreate :
    let names : Variant → String := fun v => match v with | .blake2b => "blake2b" | .blake2s => "blake2s"
    hostCreate names "blake3" 256 = none ∧ hostCreate names "blake2s" 0 = some (.init .blake2s 32) := by decide

/-- R160, from S3. -/
theorem test_hex : hexChars [0xBA#8, 0x80#8, 0xA5#8, 0x3F#8] = "ba80a53f".toList := by decide

/-- R161. -/
theorem test_taggedLine : taggedLine [0x2E#8] "blake2b" "x" = "BLAKE2b (x) = 2e" := by decide

/-! ### Witnesses: states and operands that meet the hypotheses of the statements, clause by clause -/

/-- `DecodeOfEncodeIsTheCommand` and `LegalWord`: operands at the ends of their fields. -/
theorem wit_wellFormed : (Instr.init .blake2s 127).wellFormed = true ∧ (Instr.init .blake2b 0).wellFormed = true ∧
    (Instr.update 15).wellFormed = true ∧ Instr.final.wellFormed = true := by decide

/-- `DecodedWordIsItsEncoding`. -/
theorem wit_decode : decode 0x7F11#64 = .command (.init .blake2s 127) := by decide

/-- `IllegalWordsAreTheReservedAndMalformed`: both clauses of R76 (OP 0, 4 and 15, and a fixed bit of each format). -/
theorem wit_illegal : State.reset.engine.busy = false ∧ decode 0x0#64 = .illegal .reservedOpcode ∧
    decode 0x4#64 = .illegal .reservedOpcode ∧ decode 0xF#64 = .illegal .reservedOpcode ∧
    decode 0x8001#64 = .illegal .reservedBits ∧ decode 0x12#64 = .illegal .reservedBits ∧
    decode 0x13#64 = .illegal .reservedBits := by decide

/-- `AnEventReachesItsInstance`: a CMD write of `final` to the last instance, and a placed word. -/
theorem wit_event_reaches :
    (two Engine.reset [.write 1 0x00#7 .w64 0x3#64]).requests = HostEvent.write 1 0x00#7 .w64 0x3#64 :: [] ∧
    (HostEvent.write 1 0x00#7 .w64 0x3#64).target < (two Engine.reset []).instances.length ∧
    decode 0x3#64 = .command .final ∧ decode (BitVec.ofNat 64 0x302) = .command (.update 3) := by decide

/-- `NoEventHoldsAllState`. -/
theorem wit_no_event : State.reset.requests = [] := by decide

/-- `UndefinedAccessesAreRefused`: a narrow read, and a wide write one byte past a register. -/
theorem wit_undefined_access :
    0 < (two Engine.reset []).instances.length ∧ (AccessWidth.w32 ≠ .w64 ∨ (0x10#7).toNat % 8 ≠ 0) ∧
    (AccessWidth.w64 ≠ .w64 ∨ (0x79#7).toNat % 8 ≠ 0) ∧
    (two Engine.reset [.read 0 0x10#7 .w32]).requests = HostEvent.read 0 0x10#7 .w32 :: [] ∧
    (two Engine.reset [.write 0 0x79#7 .w64 0#64]).requests = HostEvent.write 0 0x79#7 .w64 0#64 :: [] := by decide

/-- `MissingInstancesFault`: the first index that does not exist. -/
theorem wit_missing : (two Engine.reset [.reset 2]).requests = HostEvent.reset 2 :: [] ∧
    (two Engine.reset []).instances.length ≤ (HostEvent.reset 2).target := by decide

/-- `DefinedEventsAllComplete` and `InstancesAreIndependent`: events of every kind on both instances. -/
theorem wit_accepted : ∀ ev ∈ [HostEvent.write 0 0x00#7 .w64 0x4001#64, .read 1 0x78#7 .w64, .reset 1, .reset 0],
    ev.accepted (two Engine.reset []).instances.length = true := by decide

/-- `EveryCommandWriteCompletes`: a write that succeeds and one that does not. -/
theorem wit_command_write : commandError State.reset.engine 0x4001#64 = .none ∧
    commandError State.reset.engine 0x302#64 ≠ .none := by decide

/-- `InitCreatesAFreshContext`: the ends of the accepted lengths, and the first lengths outside. -/
theorem wit_init : (two (ctx .finalized .blake2b 64 0) []).engine.busy = false ∧
    (1 ≤ 1 ∧ 1 ≤ Variant.blake2b.nnMax) ∧ (1 ≤ 64 ∧ 64 ≤ Variant.blake2b.nnMax) ∧
    (1 ≤ 32 ∧ 32 ≤ Variant.blake2s.nnMax) ∧ Variant.blake2b.nnMax < 65 ∧ Variant.blake2s.nnMax < 33 := by decide

/-- `UpdateAbsorbsTheLatchBytes`: n = 0 and n = 8 on an empty and on a full buffer; IDLE; and n = 9. -/
theorem wit_update :
    (∀ n ∈ [0, 1, 128], (ctx .active .blake2b 64 n).busy = false ∧ (ctx .active .blake2b 64 n).phase = .active ∧
      (ctx .active .blake2b 64 n).buf.length ≤ (ctx .active .blake2b 64 n).variant.blockBytes) ∧
    (0 ≤ 8 ∧ 8 ≤ 8 ∧ 8 < 9) ∧ (ctx .idle .blake2b 0 0).phase ≠ .active ∧ (ctx .idle .blake2b 0 0).busy = false := by
  simp [ctx, Engine.reset, Variant.blockBytes]

/-- `FinalProducesTheDigest`: an empty and a full buffer, and FINALIZED. -/
theorem wit_final :
    (∀ e ∈ [ctx .active .blake2b 64 0, ctx .active .blake2s 32 64],
      e.busy = false ∧ e.phase = .active ∧ e.buf.length ≤ e.variant.blockBytes) ∧
    (ctx .finalized .blake2b 64 0).phase ≠ .active ∧ (ctx .finalized .blake2b 64 0).busy = false := by decide

/-- `CommandsKeepTheRest`: a command that fails, with ERR nonzero, and the three commands answering a next state. -/
theorem wit_frame :
    (∃ s', exec (.init .blake2b 64) State.reset = .next s') ∧
    (∃ s', exec (.update 8) (two (ctx .active .blake2s 32 60) []) = .next s') ∧
    (∃ s', exec .final (two { ctx .active .blake2b 64 3 with err := .invalidParameter } []) = .next s') ∧
    (∀ v N, Instr.final ≠ .init v N) ∧ ({ ctx .active .blake2b 64 3 with err := .invalidParameter } : Engine).err ≠ .none ∧
    (∃ n, Instr.update 8 = .update n) :=
  ⟨⟨_, rfl⟩, ⟨_, rfl⟩, ⟨_, rfl⟩, by intro _ _; exact Instr.noConfusion, by decide, ⟨8, rfl⟩⟩

/-- `TheFirstErrorInOrderIsRaised`: one state and word for each of the four clauses. -/
theorem wit_error_order :
    (two busyEngine []).engine.busy = true ∧
    (State.reset.engine.busy = false ∧ decode 0x0#64 = .illegal .reservedOpcode) ∧
    ((two (ctx .finalized .blake2b 64 0) []).engine.busy = false ∧ decode 0x902#64 = .command (.update 9) ∧
      (two (ctx .finalized .blake2b 64 0) []).engine.phase ≠ .active) ∧
    ((two (ctx .active .blake2b 64 0) []).engine.busy = false ∧ decode 0x902#64 = .command (.update 9) ∧
      (two (ctx .active .blake2b 64 0) []).engine.phase = .active ∧ 8 < 9) := by decide

/-- `ErrorsAreStickyAndBlockNothing`: a failing write with ERR = NONE, and one with ERR nonzero. -/
theorem wit_sticky :
    commandError State.reset.engine 0x3#64 ≠ .none ∧ State.reset.engine.err = .none ∧
    commandError { Engine.reset with err := .invalidState } 0x0#64 ≠ .none ∧
    ({ Engine.reset with err := .invalidState } : Engine).err ≠ .none := by decide

/-- `ErrIsClearedByInitAndResetAlone`, its last clause: a CMD write of `init.b 64` clears ERR. -/
theorem wit_err_cleared :
    let s := two { Engine.reset with err := .invalidState } [.write 0 0x00#7 .w64 0x4001#64]
    ∃ (s' : State) (e' : Engine), step s = .next s' ∧ s.instances[0]? = some { Engine.reset with err := .invalidState } ∧
      s'.instances[0]? = some e' ∧ e'.err = .none ∧ (HostEvent.write 0 0x00#7 .w64 0x4001#64).creates 0 s.engine :=
  ⟨_, _, rfl, rfl, rfl, rfl, 0x4001#64, .blake2b, 64, rfl, by decide, by decide⟩

/-- `WritesWhileBusyAreDiscarded` and `ReadsWhileBusyAreFree`. -/
theorem wit_busy : (two busyEngine []).engine.busy = true ∧ 0x78#7 ∈ [0x20#7, 0x28#7, 0x40#7, 0x78#7] := by decide

/-- `StatusHoldsItsFields`, its last clause, and `StepKeepsTheInvariants`: a state with three bytes buffered. -/
theorem wit_inv : (ctx .active .blake2b 64 3).busy = false ∧ (ctx .active .blake2b 64 3).Inv := by
  refine ⟨by decide, ?_⟩
  constructor <;> decide

/-- `StepKeepsTheInvariants`: a state of one such instance, and a step from it. -/
theorem wit_step_inv :
    let s := { two (ctx .active .blake2b 64 3) [.write 0 0x00#7 .w64 0x3#64] with after := [] }
    s.Inv ∧ ∃ s', step s = .next s' := by
  refine ⟨fun e he => ?_, _, rfl⟩
  rw [List.mem_singleton.mp he]
  exact wit_inv.2

/-- `CounterRegistersReadTheCounter` and `DigestRegistersReadTheDigest`: FINALIZED, the ends of k, and a byte on each side
of `nn`. -/
theorem wit_registers : (ctx .finalized .blake2s 20 0).busy = false ∧ (0 < 8 ∧ 7 < 8) ∧
    ((ctx .finalized .blake2s 20 0).phase = .finalized ∧ 8 * 2 + 3 < (ctx .finalized .blake2s 20 0).outlen.toNat) ∧
    ¬ 8 * 2 + 4 < (ctx .finalized .blake2s 20 0).outlen.toNat := by decide

/-- `MeaninglessAccessesAreHarmless` and `ReadsHaveNoSideEffects`: an offset of each clause. -/
theorem wit_offsets : (0x38#7).toNat % 8 = 0 ∧ 0x38#7 ∈ [0x00#7, 0x08#7, 0x18#7, 0x30#7, 0x38#7] ∧
    (0x78#7).toNat % 8 = 0 ∧ 0x78#7 ∉ [0x00#7, 0x08#7] ∧ State.reset.engine.busy = false := by decide

/-- `DinIsSetByItsWriteAlone`, its last clause: a DIN write changes the latch. -/
theorem wit_din :
    let s := two Engine.reset [.write 0 0x08#7 .w64 7#64]
    ∃ (s' : State) (e' : Engine), step s = .next s' ∧ s.instances[0]? = some Engine.reset ∧
      s'.instances[0]? = some e' ∧ e'.din ≠ Engine.reset.din :=
  ⟨_, _, rfl, rfl, rfl, by decide⟩

/-- `HiddenStateIsNotReadable`: other contents of B and another `h` in ACTIVE, and another hidden byte in FINALIZED. -/
theorem wit_same_view :
    SameView (ctx .active .blake2b 64 3)
      { ctx .active .blake2b 64 3 with buf := [1#8, 2#8, 3#8], h := (ctx .active .blake2b 64 3).h.set 0 5#64 } ∧
    SameView (ctx .finalized .blake2b 1 0)
      { ctx .finalized .blake2b 1 0 with h := (ctx .finalized .blake2b 1 0).h.set 0 0x100#64 } := by
  unfold SameView
  decide

/-- `RotrRotatesToTheRight`: the ends of the range of the amount. -/
theorem wit_rotr : (0 < 1 ∧ 1 < 64) ∧ (0 < 63 ∧ 63 < 64) := by decide

/-- `MessageWordsAreLittleEndian`: a block of each variant, and the last byte of a word. -/
theorem wit_block : (List.replicate 128 0#8).length = Variant.blake2b.blockBytes ∧ 7 < Variant.blake2b.wordBits / 8 ∧
    (List.replicate 64 0#8).length = Variant.blake2s.blockBytes ∧ 3 < Variant.blake2s.wordBits / 8 :=
  ⟨rfl, by decide, rfl, by decide⟩

/-- `MixingUpdatesFourWords` and `DisjointMixingCallsCommute`: a column, and two diagonals. -/
theorem wit_indices : [(0 : Fin 16), 4, 8, 12].Nodup ∧ [(3 : Fin 16), 4, 9, 14, 0, 5, 10, 15].Nodup := by decide

/-- `UpperContainerBitsAreUnused`: different containers and counters with equal used bits. -/
theorem wit_containers :
    let h := Engine.reset.h
    let h' := Engine.reset.h.set 0 0x100000000#64
    (∀ i : Fin 8, h[i].extractLsb' 0 32 = h'[i].extractLsb' 0 32) ∧ h ≠ h' ∧
    (0#128).extractLsb' 0 64 = (0x10000000000000000#128).extractLsb' 0 64 := by decide

/-- `ResetGivesTheResetValues`: an offset of the list, and the instances of a system of three. -/
theorem wit_reset : 0x10#7 ∈ [0x10#7, 0x20#7, 0x28#7, 0x78#7] ∧ Engine.reset ∈ (State.system 2).instances := by decide

/-- `PhasesFollowTheLifecycle`: FINAL on instance 0 of two, seen at it and at the other one. -/
theorem wit_phases :
    let s := two (ctx .active .blake2b 64 3) [.write 0 0x00#7 .w64 0x3#64]
    ∃ (s' : State) (e0 e1 : Engine), step s = .next s' ∧ s.instances[0]? = some (ctx .active .blake2b 64 3) ∧
      s'.instances[0]? = some e0 ∧ s.instances[1]? = some Engine.reset ∧ s'.instances[1]? = some e1 ∧
      e0.phase = .finalized ∧ e1.phase = .idle :=
  ⟨_, _, _, rfl, rfl, rfl, rfl, rfl, rfl, rfl⟩

/-- `TheDigestIsStable`: an UPDATE in FINALIZED is a step, is no reset and creates nothing. -/
theorem wit_stable :
    let e := ctx .finalized .blake2b 64 0
    let ev := HostEvent.write 0 0x00#7 .w64 0x102#64
    ∃ s' e', step (two e [ev]) = .next s' ∧ (two e [ev]).instances[0]? = some e ∧ s'.instances[0]? = some e' ∧
      e.phase = .finalized ∧ ev ≠ .reset 0 ∧ ¬ ev.creates 0 e := by
  refine ⟨_, _, rfl, rfl, rfl, rfl, by decide, ?_⟩
  rintro ⟨c, v, N, h1, h2, -⟩
  cases h1
  revert h2
  rw [show decode 0x102#64 = .command (.update 1) by decide]
  exact fun h => nomatch h

/-- `TheLastBlockIsHeldBack`, `ChunkingDoesNotMatter`, `EmptyInputHasADigest` and `TheHostSequenceYieldsTheBlake2Digest`:
the last instance, the ends of the lengths, and two splits of one string with chunks of 0 and of 8 bytes. -/
theorem wit_messages :
    (two Engine.reset []).instances[1]? = some Engine.reset ∧ Engine.reset.busy = false ∧
    (1 ≤ 1 ∧ 1 ≤ Variant.blake2s.nnMax) ∧ (1 ≤ 64 ∧ 64 ≤ Variant.blake2b.nnMax) ∧
    (∀ cs ∈ [List.replicate 8 1#8, [], [2#8]], cs.length ≤ 8) ∧
    (∀ cs ∈ [List.replicate 7 1#8, [1#8, 2#8]], cs.length ≤ 8) ∧
    [List.replicate 8 1#8, [], [2#8]].flatten = [List.replicate 7 1#8, [1#8, 2#8]].flatten := by decide

/-- `FullLengthDigestIsTheWholeChain`: a truncated and a full digest. -/
theorem wit_full_length :
    ((ctx .finalized .blake2b 20 0).phase = .finalized ∧
      (ctx .finalized .blake2b 20 0).outlen.toNat ≤ (ctx .finalized .blake2b 20 0).variant.nnMax) ∧
    (ctx .finalized .blake2s 32 0).outlen.toNat = (ctx .finalized .blake2s 32 0).variant.nnMax := by decide

/-- `TheHostConvertsBitsToBytes`, its first part: two names, a name that is neither, and an INIT at the end of its field. -/
theorem wit_names :
    let names : Variant → String := fun v => match v with | .blake2b => "blake2b" | .blake2s => "blake2s"
    names .blake2b ≠ names .blake2s ∧ ("blake3" ≠ names .blake2b ∧ "blake3" ≠ names .blake2s) ∧
    hostCreate names "blake2b" 1016 = some (.init .blake2b 127) := by decide

/-- `TheHostConvertsBitsToBytes`: each clause at the ends of its range. -/
theorem wit_bits : 12 % 8 ≠ 0 ∧ (1 ≤ 1 ∧ 1 ≤ 127 ∧ 8 = 8 * 1) ∧ (1 ≤ 127 ∧ 127 ≤ 127 ∧ 1016 = 8 * 127) ∧
    127 * 8 < 1017 := by decide

/-- `HexIsTwoLowerCaseDigitsPerByte`: the last byte of a digest. -/
theorem wit_hex : [0xBA#8, 0x80#8][1]? = some 0x80#8 := by decide

end Sys2Proof.Tests
end

section
/-! SUPPORT. How an event reaches its instance (R12, R57, R140, R197). -/

namespace Sys2Proof.Machine

/-- A CMD write on instance `k`, performed on the instance in `engine`, is the write of its command word (R140). -/
theorem perform_write_cmd (k : Nat) (c : Word64) (s : State) :
    perform (.write k 0x00#7 .w64 c) s = commandWrite c s := rfl

/-- A legal command word runs the command it decodes to (R140). -/
theorem commandWrite_of_decode {c : Word64} {i : Instr} (h : decode c = .command i) (s : State) :
    commandWrite c s = exec i s := by
  simp [commandWrite, h]

/-- Settles O5: the witness is the state `State.select` gives once the event is taken from the pending ones. -/
theorem anEventReachesItsInstance : Obligations.AnEventReachesItsInstance := by
  refine ⟨fun s ev rest hreq hk => ?_, fun s w i hdec => ?_⟩
  · obtain ⟨s0, hsel⟩ := State.select_isSome (s := { s with requests := rest }) hk
    obtain ⟨hinst, heng, hbefore, hrest, hreplies, hdraws⟩ := State.select_spec hsel
    have hstep : step s = perform ev s0 := step_of_cons hreq hsel
    refine ⟨s0, hinst, heng, hbefore, hrest, hreplies, hdraws, hstep, fun c i hev hdec => ?_⟩
    calc step s = perform (.write ev.target 0x00#7 .w64 c) s0 := hstep.trans (congrArg (perform · s0) hev)
      _ = commandWrite c s0 := perform_write_cmd _ c s0
      _ = exec i s0 := commandWrite_of_decode hdec s0
  · have hword : BitVec.ofNat 64 (w % 2 ^ 64) = BitVec.ofNat 64 w :=
      BitVec.eq_of_toNat_eq (by simp)
    rw [step_withFetchWord, hword, commandWrite_of_decode hdec]

end Sys2Proof.Machine
end

section
/-! SUPPORT. The invariant of the hasher contexts (R24, R28, R32, R42, R146): it holds right after reset, and every event
keeps it. -/

namespace Sys2Proof.Machine

/-- Whatever one iteration of UPDATE's loop keeps, the whole absorption keeps, once the bytes are appended (R143). -/
theorem Engine.absorb_induction {P : Engine → Prop} (hstep : ∀ e : Engine, P e → P e.compressOldest)
    {bytes : List Byte} {e : Engine} (h : P { e with buf := e.buf ++ bytes }) : P (e.absorb bytes) := by
  suffices ∀ (k : Nat) (e : Engine), P e → P (Engine.drain k e) from this _ _ h
  intro k
  induction k with
  | zero => exact fun e he => he
  | succ k ih =>
    intro e he
    by_cases hb : e.blockBytes < e.buf.length
    · rw [Engine.drain_of_lt k hb]
      exact ih _ (hstep e he)
    · rwa [Engine.drain_of_le _ (Nat.not_lt.mp hb)]

/-- R42: for BLAKE2s the chaining value fits 32-bit words and the counter 64 bits. -/
def Engine.FitsWidth (e : Engine) : Prop :=
  e.variant = .blake2s → (∀ i : Fin 8, e.h[i].toNat < 2 ^ 32) ∧ e.t.toNat < 2 ^ 64

/-- The counter of BLAKE2s stays below `2^64` (R42). -/
theorem advanceCounter_blake2s_lt (t : BitVec 128) (n : Nat) : (advanceCounter .blake2s t n).toNat < 2 ^ 64 := by
  rw [advanceCounter_toNat]
  exact Nat.mod_lt _ (by decide)

/-- What a compression and an advance of the counter leave fits the width, whatever was there before. -/
theorem Engine.fitsWidth_of_compressAt {e : Engine} {v : Variant} {h : Vector Word64 8} {M : List Byte}
    {t u : BitVec 128} {f : Bool} {n : Nat} (hv : e.variant = v) (hh : e.h = compressAt v h M t f)
    (ht : e.t = advanceCounter v u n) : e.FitsWidth := by
  intro hs
  obtain rfl : v = .blake2s := hv.symm.trans hs
  rw [hh, ht]
  exact ⟨compressAt_lt h M t f, advanceCounter_blake2s_lt u n⟩

theorem Engine.compressOldest_fitsWidth (e : Engine) : e.compressOldest.FitsWidth :=
  Engine.fitsWidth_of_compressAt rfl rfl rfl

theorem Engine.finish_fitsWidth (e : Engine) : e.finish.FitsWidth :=
  Engine.fitsWidth_of_compressAt rfl rfl rfl

namespace Engine.Inv

theorem fitsWidth {e : Engine} (h : e.Inv) : e.FitsWidth := fun hs => ⟨h.chainWidth hs, h.counterWidth hs⟩

theorem reset : Engine.reset.Inv := by constructor <;> decide

/-- The invariant reads neither ERR nor DIN. -/
theorem of_eq_except_err_din {e e' : Engine} (h : e.Inv)
    (heq : { e' with err := e.err, din := e.din } = e) : e'.Inv := by
  obtain ⟨h1, h2, h3, h4, h5, h6, h7, h8⟩ := h
  rw [← heq] at h1 h2 h3 h4 h5 h6 h7 h8
  exact ⟨h1, h2, h3, h4, h5, h6, h7, h8⟩

theorem raise {e : Engine} (h : e.Inv) (k : ErrCode) : (e.raise k).Inv :=
  h.of_eq_except_err_din (by rw [Engine.raise_eq])

theorem writeReg {e : Engine} (h : e.Inv) (x : Word64) (r : Reg) : (e.writeReg x r).Inv := by
  cases r
  case din => exact h.of_eq_except_err_din (by rw [Engine.writeReg, Engine.writeDin, if_neg (by simp [h.atomic])])
  all_goals exact h

/-- INIT gives a context that meets the invariant, whatever the context before it was (R142). -/
theorem create {e : Engine} (hb : e.busy = false) {v : Variant} {N : Nat} (h1 : 1 ≤ N) (h2 : N ≤ v.nnMax) :
    (e.create v N).Inv where
  atomic := hb
  bufBound := Nat.zero_le _
  bufEmpty _ := rfl
  heldBack _ _ := rfl
  outlenRange _ := by
    have hmax : v.nnMax < 2 ^ 7 := by cases v <;> decide
    rw [Engine.create_outlen, Engine.create_variant, BitVec.toNat_ofNat, Nat.mod_eq_of_lt (by omega)]
    exact ⟨h1, h2⟩
  idleContext h := nomatch h
  chainWidth hv := by
    obtain rfl : v = .blake2s := hv
    exact seedChain_lt N
  counterWidth _ := by simp

/-- UPDATE leaves a full block at most, and holds back a byte of what it has absorbed (R28, R143). -/
theorem absorb {e : Engine} (h : e.Inv) (ha : e.phase = .active) (bytes : List Byte) : (e.absorb bytes).Inv := by
  obtain ⟨hphase, hvariant, houtlen, -, hbusy, -, hbound, hheld⟩ := Engine.absorb_spec bytes e
  have hfits : (e.absorb bytes).FitsWidth :=
    Engine.absorb_induction (fun e _ => e.compressOldest_fitsWidth) h.fitsWidth
  refine ⟨?_, ?_, ?_, ?_, ?_, ?_, fun hs => (hfits hs).1, fun hs => (hfits hs).2⟩
  · rw [hbusy]; exact h.atomic
  · rw [hvariant]; exact hbound
  · intro hna; exact absurd (hphase.trans ha) hna
  · intro _ hempty
    have hnil : e.buf ++ bytes = [] := by
      by_contra hne
      have hpos := hheld (List.length_pos_of_ne_nil hne)
      simp [hempty] at hpos
    rw [Engine.absorb_of_le (by simp [hnil])]
    exact h.heldBack ha (List.append_eq_nil_iff.mp hnil).1
  · rw [hphase, houtlen, hvariant]; exact h.outlenRange
  · intro hidle; rw [hphase, ha] at hidle; cases hidle

/-- FINAL empties the buffer and keeps VARIANT and OUTLEN (R144). -/
theorem finish {e : Engine} (h : e.Inv) (ha : e.phase = .active) : e.finish.Inv where
  atomic := h.atomic
  bufBound := Nat.zero_le _
  bufEmpty _ := rfl
  heldBack h := nomatch h
  outlenRange _ := h.outlenRange (by simp [ha])
  idleContext h := nomatch h
  chainWidth hs := (e.finish_fitsWidth hs).1
  counterWidth hs := (e.finish_fitsWidth hs).2

/-- A CMD write of any word keeps the invariant (R140). -/
theorem commandEffect {e : Engine} (h : e.Inv) (c : Word64) : (commandEffect c e).Inv := by
  obtain ⟨hfail, hsucc⟩ := commandEffect_spec e c
  by_cases hc : commandError e c = .none
  · obtain ⟨hb, ⟨v, N, -, h1, h2, heq⟩ | ⟨n, -, ha, -, heq⟩ | ⟨-, ha, heq⟩⟩ := hsucc hc
    · rw [heq]; exact create hb h1 h2
    · rw [heq]; exact h.absorb ha _
    · rw [heq]; exact h.finish ha
  · rw [hfail hc]; exact h.raise _

/-- Every event keeps the invariant of the instance it acts on. -/
theorem eventEffect {e : Engine} (h : e.Inv) (ev : HostEvent) : (eventEffect ev e).Inv := by
  cases ev with
  | reset k => exact reset
  | read k off width => exact h
  | write k off width x =>
    rw [Machine.eventEffect]
    split
    · exact h.commandEffect x
    · exact h.writeReg x _

end Engine.Inv

/-- Settles O37: a step changes one instance at most, by the effect of its event. -/
theorem stepKeepsTheInvariants : Obligations.StepKeepsTheInvariants := by
  intro s s' hinv hstep
  cases hr : s.requests with
  | nil =>
    rw [step_of_nil hr] at hstep
    cases hstep
    exact hinv
  | cons ev rest =>
    obtain ⟨e, he, hinst, -⟩ := step_next hr hstep
    intro e' he'
    rw [hinst] at he'
    obtain hold | rfl := List.mem_or_eq_of_mem_set he'
    · exact hinv e' hold
    · exact (hinv e (List.mem_of_getElem? he)).eventEffect ev

/-- Every instance of a system starts with the reset values of R41. -/
theorem eq_reset_of_mem_system {n : Nat} {e : Engine} (h : e ∈ (State.system n).instances) : e = Engine.reset := by
  obtain rfl | h := List.mem_cons.mp h
  · rfl
  · exact List.eq_of_mem_replicate h

/-- Settles O36: every instance of a system starts with the reset values. -/
theorem resetMeetsTheInvariants : Obligations.ResetMeetsTheInvariants := by
  have hsystem (n : Nat) : (State.system n).Inv := fun e he => by
    rw [eq_reset_of_mem_system he]
    exact Engine.Inv.reset
  exact ⟨hsystem 0, hsystem⟩

end Sys2Proof.Machine
end

section
/-! SUPPORT. A message absorbed chunk by chunk (R80, R150): what the host's events do to their instance, and the last block
they leave in the buffer (R28, R151, R155). -/

namespace Sys2Proof.Machine

/-! ### The words of the commands (R71, R78) -/

theorem decode_encode_init (v : Variant) {nn : Nat} (h : nn < 128) :
    decode (encode (.init v nn)) = .command (.init v nn) := by
  have hall : ∀ n : Fin 128, decode (encode (.init v n)) = .command (.init v n) := by cases v <;> decide
  exact hall ⟨nn, h⟩

theorem decode_encode_update {n : Nat} (h : n < 16) : decode (encode (.update n)) = .command (.update n) := by
  have hall : ∀ n : Fin 16, decode (encode (.update n)) = .command (.update n) := by decide
  exact hall ⟨n, h⟩

/-- The command word of an instruction whose operands fit their fields decodes to it. -/
theorem decode_encode {i : Instr} (h : i.wellFormed = true) : decode (encode i) = .command i := by
  cases i with
  | init v nn => exact decode_encode_init v (of_decide_eq_true h)
  | update n => exact decode_encode_update (of_decide_eq_true h)
  | final => decide

/-- A digest length that INIT accepts fits the field OUTLEN (R72, R77). -/
theorem wellFormed_init {v : Variant} {nn : Nat} (h : nn ≤ v.nnMax) : (Instr.init v nn).wellFormed = true := by
  have hmax : v.nnMax < 128 := by cases v <;> decide
  exact decide_eq_true (by omega)

/-- A byte count that UPDATE accepts fits the field NBYTES (R73, R77). -/
theorem wellFormed_update {n : Nat} (h : n ≤ 8) : (Instr.update n).wellFormed = true :=
  decide_eq_true (by omega)

/-! ### What the host's events do to their instance -/

@[simp] theorem wrCmd_target (k : Nat) (i : Instr) : (wrCmd k i).target = k := rfl
@[simp] theorem wrDin_target (k : Nat) (x : Word64) : (wrDin k x).target = k := rfl

/-- The host's write of a command runs it (R79, R140). -/
theorem eventEffect_wrCmd (k : Nat) {i : Instr} (h : i.wellFormed = true) (e : Engine) :
    eventEffect (wrCmd k i) e = execEffect i e := by
  have hcmd : regAt 0x00#7 = .cmd := (regAt_eq_cmd _).mpr rfl
  rw [wrCmd, eventEffect, if_pos hcmd, commandEffect, decode_encode h]

/-- The host's DIN write sets the latch (R79, R148). -/
theorem eventEffect_wrDin (k : Nat) (x : Word64) {e : Engine} (hb : e.busy = false) :
    eventEffect (wrDin k x) e = e.setDin x := by
  have hdin : regAt 0x08#7 = .din := (regAt_eq_din _).mpr rfl
  simp [wrDin, eventEffect, hdin, Engine.writeReg, Engine.writeDin, hb, Engine.setDin]

theorem execEffect_init {v : Variant} {nn : Nat} (h1 : 1 ≤ nn) (h2 : nn ≤ v.nnMax) {e : Engine}
    (hb : e.busy = false) : execEffect (.init v nn) e = e.create v nn :=
  Engine.command_success hb (by simp [initCheck, outlenAccepted, h1, h2])

theorem execEffect_update {n : Nat} (hn : n ≤ 8) {e : Engine} (hb : e.busy = false) (ha : e.phase = .active) :
    execEffect (.update n) e = e.absorb (dinBytes n e.din) :=
  Engine.command_success hb (by simp [updateCheck, nbytesAccepted, ha, hn])

theorem eventsEffect_append (k : Nat) (evs evs' : List HostEvent) (e : Engine) :
    eventsEffect k (evs ++ evs') e = eventsEffect k evs' (eventsEffect k evs e) := List.foldl_append

theorem eventsEffect_cons {k : Nat} {ev : HostEvent} (hk : ev.target = k) (evs : List HostEvent) (e : Engine) :
    eventsEffect k (ev :: evs) e = eventsEffect k evs (eventEffect ev e) := by
  rw [eventsEffect, List.foldl_cons, if_pos hk, eventsEffect]

@[simp] theorem eventsEffect_nil (k : Nat) (e : Engine) : eventsEffect k [] e = e := rfl

/-- One chunk: the latch keeps the packed chunk, and the chunk is absorbed (R80). -/
theorem eventsEffect_absorbChunk (k : Nat) {cs : List Byte} (hcs : cs.length ≤ 8) {e : Engine} (hb : e.busy = false)
    (ha : e.phase = .active) :
    eventsEffect k (absorbChunk k cs) e = (e.absorb cs).setDin (leWord 64 cs) := by
  calc eventsEffect k (absorbChunk k cs) e
      = execEffect (.update cs.length) (e.setDin (leWord 64 cs)) := by
        rw [absorbChunk, eventsEffect_cons (wrDin_target k _), eventsEffect_cons (wrCmd_target k _), eventsEffect_nil,
          eventEffect_wrDin k _ hb, eventEffect_wrCmd k (wellFormed_update hcs)]
    _ = (e.setDin (leWord 64 cs)).absorb (dinBytes cs.length (leWord 64 cs)) := execEffect_update hcs hb ha
    _ = (e.absorb cs).setDin (leWord 64 cs) := by rw [dinBytes_leWord cs hcs, Engine.absorb_setDin]

/-- Chunks of at most 8 bytes: what is absorbed is their concatenation, and only DIN tells them apart (R80, R150). -/
theorem eventsEffect_absorbChunks (k : Nat) (css : List (List Byte)) (hcss : ∀ cs ∈ css, cs.length ≤ 8) :
    ∀ e : Engine, e.busy = false → e.phase = .active → e.buf.length ≤ e.blockBytes →
      ∃ x, eventsEffect k (css.flatMap (absorbChunk k)) e = (e.absorb css.flatten).setDin x := by
  induction css with
  | nil =>
    intro e _ _ hbuf
    refine ⟨e.din, ?_⟩
    rw [List.flatten_nil, Engine.absorb_nil hbuf]
    rfl
  | cons cs css ih =>
    intro e hb ha _
    obtain ⟨hphase, hvariant, -, -, hbusy, -, hbound, -⟩ := Engine.absorb_spec cs e
    have hbs : (e.absorb cs).blockBytes = e.blockBytes := congrArg Variant.blockBytes hvariant
    obtain ⟨x, hx⟩ := ih (fun cs' h => hcss cs' (List.mem_cons_of_mem _ h)) ((e.absorb cs).setDin (leWord 64 cs))
      (hbusy.trans hb) (hphase.trans ha) (hbs ▸ hbound)
    refine ⟨x, ?_⟩
    rw [List.flatMap_cons, eventsEffect_append, eventsEffect_absorbChunk k (hcss cs List.mem_cons_self) hb ha, hx,
      Engine.absorb_setDin, Engine.absorb_append, List.flatten_cons]
    rfl

/-- The run of defined events completes, and does to each instance what the events on it do (R57, R58). -/
theorem runEvents_of_accepted {evs : List HostEvent} {s : State}
    (h : ∀ ev ∈ evs, ev.accepted s.instances.length = true) :
    ∃ s', runEvents evs s = .next s' ∧ ∀ k, s'.instances[k]? = (s.instances[k]?).map (eventsEffect k evs) := by
  obtain ⟨s', hrun, -, hinst⟩ := run_of_accepted evs { s with requests := evs } rfl h
  exact ⟨s', hrun, hinst⟩

/-- The events of an INIT and of chunks are ones the interface defines. -/
theorem accepted_wrCmd {k N : Nat} (hk : k < N) (i : Instr) : (wrCmd k i).accepted N = true := by
  simp [wrCmd, HostEvent.accepted, accessDefined, hk]

theorem accepted_of_mem_absorbChunk {k N : Nat} (hk : k < N) {cs : List Byte} {ev : HostEvent}
    (h : ev ∈ absorbChunk k cs) : ev.accepted N = true := by
  obtain rfl | h := List.mem_cons.mp h
  · simp [wrDin, HostEvent.accepted, accessDefined, hk]
  · rw [List.mem_singleton.mp h]
    exact accepted_wrCmd hk _

/-- INIT and chunks of at most 8 bytes, performed on instance `k`, absorb the concatenation of the chunks into a fresh
context (R80, R142, R150). -/
theorem runEvents_absorbChunks {s : State} {k : Nat} {e : Engine} {v : Variant} {nn : Nat} {css : List (List Byte)}
    (he : s.instances[k]? = some e) (hb : e.busy = false) (h1 : 1 ≤ nn) (h2 : nn ≤ v.nnMax)
    (hcss : ∀ cs ∈ css, cs.length ≤ 8) :
    ∃ s' x, runEvents (wrCmd k (.init v nn) :: css.flatMap (absorbChunk k)) s = .next s' ∧
      s'.instances[k]? = some (((e.create v nn).absorb css.flatten).setDin x) := by
  obtain ⟨hk, -⟩ := List.getElem?_eq_some_iff.mp he
  have hacc : ∀ ev ∈ wrCmd k (.init v nn) :: css.flatMap (absorbChunk k), ev.accepted s.instances.length = true := by
    intro ev hev
    obtain rfl | hev := List.mem_cons.mp hev
    · exact accepted_wrCmd hk _
    · obtain ⟨cs, -, hmem⟩ := List.mem_flatMap.mp hev
      exact accepted_of_mem_absorbChunk hk hmem
  obtain ⟨s', hrun, hinst⟩ := runEvents_of_accepted hacc
  obtain ⟨x, hx⟩ := eventsEffect_absorbChunks k css hcss (e.create v nn) hb rfl (Nat.zero_le _)
  refine ⟨s', x, hrun, ?_⟩
  have heff : eventsEffect k (wrCmd k (.init v nn) :: css.flatMap (absorbChunk k)) e =
      ((e.create v nn).absorb css.flatten).setDin x := by
    rw [eventsEffect_cons (wrCmd_target k _), eventEffect_wrCmd k (wellFormed_init h2),
      execEffect_init h1 h2 hb, hx]
  rw [hinst, he, Option.map_some, heff]

/-! ### The last block is held back -/

/-- How many of `L` bytes stay in the buffer: none of none, and else the last block, full or partial (R28, R151). -/
def heldBytes (bs L : Nat) : Nat := if L = 0 then 0 else (L - 1) % bs + 1

theorem heldBytes_of_le {bs L : Nat} (h : L ≤ bs) : heldBytes bs L = L := by
  unfold heldBytes
  split
  · omega
  · rw [Nat.mod_eq_of_lt (by omega)]
    omega

theorem heldBytes_le (bs L : Nat) : heldBytes bs L ≤ L := by
  have := Nat.mod_le (L - 1) bs
  unfold heldBytes
  split <;> omega

/-- Compressing a block does not change how many bytes stay. -/
theorem heldBytes_sub {bs L : Nat} (h : bs < L) : heldBytes bs (L - bs) = heldBytes bs L := by
  have hmod : (L - bs - 1) % bs = (L - 1) % bs := by
    rw [show L - bs - 1 = L - 1 - bs by omega, ← Nat.mod_eq_sub_mod (by omega)]
  rw [heldBytes, heldBytes, if_neg (by omega), if_neg (by omega), hmod]

/-- UPDATE's loop leaves the last block of the buffer and counts the bytes before it (R143, R151). -/
theorem Engine.drainAll_buf_t {e : Engine} (ht : e.t.toNat < 2 ^ (2 * e.variant.wordBits)) :
    e.drainAll.buf = e.buf.drop (e.buf.length - heldBytes e.blockBytes e.buf.length) ∧
    e.drainAll.t.toNat =
      (e.t.toNat + (e.buf.length - heldBytes e.blockBytes e.buf.length)) % 2 ^ (2 * e.variant.wordBits) := by
  induction hn : e.buf.length using Nat.strong_induction_on generalizing e with
  | h n ih =>
    subst hn
    by_cases hb : e.blockBytes < e.buf.length
    · have hp : 0 < e.blockBytes := Variant.blockBytes_pos _
      have hle := heldBytes_le e.blockBytes (e.buf.length - e.blockBytes)
      have hrest : e.compressOldest.buf.length = e.buf.length - e.blockBytes := List.length_drop
      have hmod : e.compressOldest.t.toNat < 2 ^ (2 * e.variant.wordBits) := by
        rw [Engine.compressOldest_t, advanceCounter_toNat]
        exact Nat.mod_lt _ (Nat.two_pow_pos _)
      obtain ⟨hbuf, ht'⟩ := ih _ (by omega) hmod rfl
      rw [Engine.drainAll_of_lt hb, hbuf, ht', hrest]
      simp only [Engine.compressOldest_buf, Engine.compressOldest_blockBytes, Engine.compressOldest_variant,
        Engine.compressOldest_t, advanceCounter_toNat, List.drop_drop, Nat.mod_add_mod, heldBytes_sub hb] at hle ⊢
      exact ⟨by congr 1; omega, by congr 1; omega⟩
    · have hle := Nat.not_lt.mp hb
      rw [Engine.drainAll_of_le hle, heldBytes_of_le hle, Nat.sub_self, Nat.add_zero, Nat.mod_eq_of_lt ht]
      exact ⟨rfl, rfl⟩

/-- Absorbing a message into a fresh context holds its last block back (R28, R151, R155). -/
theorem Engine.absorb_create_buf_t (v : Variant) (nn : Nat) (e : Engine) (M : List Byte) :
    ((e.create v nn).absorb M).buf = M.drop (M.length - heldBytes v.blockBytes M.length) ∧
    ((e.create v nn).absorb M).t.toNat = (M.length - heldBytes v.blockBytes M.length) % 2 ^ (2 * v.wordBits) := by
  obtain ⟨hbuf, ht⟩ := Engine.drainAll_buf_t (e := (e.create v nn).append M) (Nat.two_pow_pos _)
  exact ⟨hbuf, ht.trans (congrArg (· % _) (Nat.zero_add _))⟩

/-- Settles O40: the run absorbs the message into a fresh context, which holds its last block back. -/
theorem theLastBlockIsHeldBack : Obligations.TheLastBlockIsHeldBack := by
  intro s k e v nn css he hb h1 h2 hcss
  obtain ⟨s', x, hrun, hinst⟩ := runEvents_absorbChunks he hb h1 h2 hcss
  obtain ⟨hphase, -⟩ := Engine.absorb_spec css.flatten (e.create v nn)
  obtain ⟨hbuf, ht⟩ := Engine.absorb_create_buf_t v nn e css.flatten
  refine ⟨s', _, hrun, hinst, hphase, hbuf, ?_, ht⟩
  have hle := heldBytes_le v.blockBytes css.flatten.length
  calc ((e.create v nn).absorb css.flatten).buf.length
      = css.flatten.length - (css.flatten.length - heldBytes v.blockBytes css.flatten.length) := by
        rw [hbuf, List.length_drop]
    _ = heldBytes v.blockBytes css.flatten.length := by omega

end Sys2Proof.Machine
end

section
/-! SUPPORT. The register window (R50 to R54): the host's accesses to the instance in `engine`, what STATUS, T0, T1 and DOUT
read, and what no read shows (R35, R37 to R41, R53). -/

namespace Sys2Proof.Machine

/-! ### Accesses to the instance in `engine` -/

/-- Settles O6: a step performs a pending event and nothing else. -/
theorem noEventHoldsAllState : Obligations.NoEventHoldsAllState := fun _ h => step_of_nil h

/-- An aligned 64-bit access is the one the interface defines (R52). -/
theorem accessDefined_w64 {off : BitVec 7} (h : off.toNat % 8 = 0) : accessDefined off .w64 = true := by
  simp [accessDefined, h]

theorem hostRead_of_aligned {off : BitVec 7} (h : off.toNat % 8 = 0) (s : State) :
    hostRead off s = .next (s.performRead off) := by
  rw [hostRead_eq, perform, if_pos (accessDefined_w64 h)]

/-- With BUSY = 0 the host receives the register's value and nothing else changes (R54). -/
theorem hostRead_of_not_busy {off : BitVec 7} (h : off.toNat % 8 = 0) {s : State} (hb : s.engine.busy = false) :
    hostRead off s = .next { s with replies := s.replies ++ [readReg s.engine (regAt off)] } := by
  rw [hostRead_of_aligned h, State.performRead, if_neg (by simp [hb])]
  rfl

/-- A write to a register other than CMD and DIN is ignored (R53). -/
theorem hostWrite_of_ignored {off : BitVec 7} (h : off.toNat % 8 = 0) (hcmd : off ≠ 0x00#7) (hdin : off ≠ 0x08#7)
    (x : Word64) (s : State) : hostWrite off x s = .next s := by
  have hc : regAt off ≠ .cmd := fun he => hcmd ((regAt_eq_cmd off).mp he)
  have hd : regAt off ≠ .din := fun he => hdin ((regAt_eq_din off).mp he)
  have hkeep : s.engine.writeReg x (regAt off) = s.engine := by
    cases hr : regAt off
    case din => exact absurd hr hd
    all_goals rfl
  rw [hostWrite_eq, perform, if_pos (accessDefined_w64 h), if_neg hc, State.onEngine, hkeep]

/-- The offsets of DOUT0 to DOUT7 (R51). -/
theorem regAt_dout {k : Nat} (hk : k < 8) : regAt (BitVec.ofNat 7 (0x40 + 8 * k)) = .dout k := by
  have hall : ∀ k : Fin 8, regAt (BitVec.ofNat 7 (0x40 + 8 * k)) = .dout k := by decide
  exact hall ⟨k, hk⟩

theorem doutOffset_toNat {k : Nat} (hk : k < 8) : (BitVec.ofNat 7 (0x40 + 8 * k)).toNat = 0x40 + 8 * k := by
  rw [BitVec.toNat_ofNat, Nat.mod_eq_of_lt (by omega)]

/-! ### STATUS -/

/-- The fields of STATUS up to bit 39, from the lowest (R37). -/
theorem statusWord_fields (e : Engine) :
    (statusWord e).extractLsb' 0 2 = e.phase.code ∧ (statusWord e).extractLsb' 2 1 = e.variant.tag ∧
    (statusWord e).extractLsb' 3 1 = BitVec.ofBool e.busy ∧ (statusWord e).extractLsb' 4 4 = 0#4 ∧
    (statusWord e).extractLsb' 8 3 = e.err.code ∧ (statusWord e).extractLsb' 11 5 = 0#5 ∧
    (statusWord e).extractLsb' 16 7 = e.outlen ∧ (statusWord e).extractLsb' 23 9 = 0#9 ∧
    (statusWord e).extractLsb' 32 8 = bufLen e := by
  simp (disch := omega) only [statusWord, BitVec.extractLsb'_setWidth_of_le, BitVec.extractLsb'_append_eq_of_le,
    BitVec.extractLsb'_append_eq_of_add_le, BitVec.extractLsb'_eq_self, Nat.sub_eq_zero_of_le, and_self]

/-- The fields of STATUS take 40 bits (R37). -/
theorem statusWord_high (e : Engine) : (statusWord e).extractLsb' 40 24 = 0#24 := by
  apply BitVec.eq_of_getLsbD_eq
  intro i _
  rw [BitVec.getLsbD_extractLsb', statusWord, BitVec.getLsbD_setWidth, BitVec.getLsbD_of_ge _ (40 + i) (by omega)]
  simp

/-- A bit of a word from the field of width 1 that it is. -/
theorem getLsbD_of_extractLsb'_one {w i : Nat} {x : BitVec w} {b : BitVec 1} (h : x.extractLsb' i 1 = b) :
    x.getLsbD i = b.getLsbD 0 := by
  rw [← h, BitVec.getLsbD_extractLsb']
  simp

theorem Variant.nnMax_le (v : Variant) : v.nnMax ≤ 64 := by cases v <;> decide

theorem Variant.blockBytes_le (v : Variant) : v.blockBytes ≤ 128 := by cases v <;> decide

/-- R24, R41: the digest length is 0 in IDLE and at most NN_MAX elsewhere. -/
theorem Engine.Inv.outlen_le {e : Engine} (h : e.Inv) : e.outlen.toNat ≤ 64 := by
  by_cases hp : e.phase = .idle
  · obtain ⟨-, ho, -⟩ := h.idleContext hp
    simp [ho]
  · exact (h.outlenRange hp).2.trans (Variant.nnMax_le _)

/-- R28: the buffer holds a block of either variant at most. -/
theorem Engine.Inv.buf_length_le {e : Engine} (h : e.Inv) : e.buf.length ≤ 128 :=
  h.bufBound.trans (Variant.blockBytes_le _)

/-- Settles O19: the read returns `statusWord`, whose fields `statusWord_fields` lists. -/
theorem statusHoldsItsFields : Obligations.StatusHoldsItsFields := by
  intro s hb
  obtain ⟨hphase, htag, hbusy, h4, herr, h11, houtlen, h23, hbuf⟩ := statusWord_fields s.engine
  refine ⟨⟨statusWord s.engine, hostRead_of_not_busy (by decide) hb, hphase, ?_, ?_, h4, herr, h11, houtlen, h23, hbuf,
    statusWord_high _, fun hinv => ⟨?_, ?_, hinv.buf_length_le⟩⟩,
    fun x => hostWrite_of_ignored (by decide) (by decide) (by decide) x s⟩
  · rw [getLsbD_of_extractLsb'_one htag]
    cases s.engine.variant <;> rfl
  · rw [getLsbD_of_extractLsb'_one hbusy]
    cases s.engine.busy <;> rfl
  · rw [houtlen]
    exact hinv.outlen_le
  · have hle := hinv.buf_length_le
    rw [hbuf, bufLen, BitVec.toNat_ofNat, Nat.mod_eq_of_lt (by omega)]

/-! ### T0 and T1 -/

/-- The counter's words at width `w` as numbers (R26). -/
theorem counterLow_toNat {w : Nat} (t : BitVec (2 * w)) : (counterLow t).toNat = t.toNat % 2 ^ w := by
  simp [counterLow]

theorem counterHigh_toNat {w : Nat} (t : BitVec (2 * w)) : (counterHigh t).toNat = t.toNat / 2 ^ w % 2 ^ w := by
  simp [counterHigh, Nat.shiftRight_eq_div_pow]

theorem Variant.wordBits_le (v : Variant) : v.wordBits ≤ 64 := by cases v <;> decide

/-- T0 is the counter's low word at the variant's width (R38). -/
theorem t0Word_eq (e : Engine) : t0Word e = BitVec.ofNat 64 (e.t.toNat % 2 ^ e.variant.wordBits) := by
  have hdvd : 2 ^ e.variant.wordBits ∣ 2 ^ (2 * e.variant.wordBits) := Nat.pow_dvd_pow 2 (by omega)
  rw [t0Word, ← BitVec.ofNat_toNat, counterLow_toNat, BitVec.toNat_setWidth, Nat.mod_mod_of_dvd _ hdvd]

/-- T1 is the counter's high word at the variant's width (R38). -/
theorem t1Word_eq (e : Engine) :
    t1Word e = BitVec.ofNat 64 (e.t.toNat / 2 ^ e.variant.wordBits % 2 ^ e.variant.wordBits) := by
  rw [t1Word, ← BitVec.ofNat_toNat, counterHigh_toNat, BitVec.toNat_setWidth, Nat.two_mul, Nat.pow_add,
    Nat.mod_mul_right_div_self, Nat.mod_mod]

/-- Settles O20: the reads return `t0Word` and `t1Word`. -/
theorem counterRegistersReadTheCounter : Obligations.CounterRegistersReadTheCounter := by
  intro s hb w
  have hw : w = s.engine.variant.wordBits := rfl
  rw [hw, ← t0Word_eq, ← t1Word_eq]
  exact ⟨hostRead_of_not_busy (by decide) hb, hostRead_of_not_busy (by decide) hb, fun x =>
    ⟨hostWrite_of_ignored (by decide) (by decide) (by decide) x s,
     hostWrite_of_ignored (by decide) (by decide) (by decide) x s⟩⟩

/-! ### DOUT -/

/-- Byte `j` of words serialised `m` bytes each is byte `j mod m` of word `j / m`, and 0 beyond the last word (R10). -/
theorem getD_flatMap_leBytes {w m : Nat} (hm : 0 < m) (L : List (BitVec w)) : ∀ j : Nat,
    (L.flatMap (leBytes m)).getD j 0#8 = (L.getD (j / m) 0#w).extractLsb' (8 * (j % m)) 8 := by
  induction L with
  | nil => intro j; simp
  | cons x L ih =>
    intro j
    have hlen : (leBytes m x).length = m := by simp [leBytes]
    rw [List.flatMap_cons]
    by_cases hj : j < m
    · rw [List.getD_append _ _ _ _ (by omega), Nat.div_eq_of_lt hj, Nat.mod_eq_of_lt hj]
      simp [leBytes, hj]
    · have hdiv : j / m = (j - m) / m + 1 := Nat.div_eq_sub_div hm (by omega)
      have hmod : j % m = (j - m) % m := Nat.mod_eq_sub_mod (by omega)
      rw [List.getD_append_right _ _ _ _ (by omega), hlen, ih, hdiv, hmod, List.getD_cons_succ]

/-- Byte `j` of the serialised chaining value (R39). -/
theorem chainBytes_getD (e : Engine) (j : Nat) :
    (chainBytes e).getD j 0#8 =
      (e.h.toList.getD (j / (e.variant.wordBits / 8)) 0#64).extractLsb' (8 * (j % (e.variant.wordBits / 8))) 8 :=
  getD_flatMap_leBytes (by cases e.variant <;> decide) _ j

/-- Byte `i` of DOUTk is byte `8k + i` of the digest image (R39). -/
theorem doutWord_byte (e : Engine) (k : Nat) {i : Nat} (hi : i < 8) :
    (doutWord e k).extractLsb' (8 * i) 8 = digestByte e (8 * k + i) := by
  rw [doutWord, leWord_byte (by decide) _ i (by omega)]
  simp [hi]

/-- Settles O21: the read returns `doutWord`, byte by byte the digest image of `h`. -/
theorem digestRegistersReadTheDigest : Obligations.DigestRegistersReadTheDigest := by
  intro s k hb hk wb
  have hwb : wb = s.engine.variant.wordBits / 8 := by
    cases hv : s.engine.variant <;> simp [wb, hv, Variant.wordBits]
  have hoff := doutOffset_toNat hk
  have hal : (BitVec.ofNat 7 (0x40 + 8 * k)).toNat % 8 = 0 := by omega
  have hne {a : BitVec 7} (ha : a.toNat < 0x40) : BitVec.ofNat 7 (0x40 + 8 * k) ≠ a := fun h => by
    rw [h] at hoff
    omega
  refine ⟨⟨doutWord s.engine k, ?_, fun i hi => ?_⟩, fun x =>
    hostWrite_of_ignored hal (hne (by decide)) (hne (by decide)) x s⟩
  · rw [hostRead_of_not_busy hal hb, regAt_dout hk, readReg]
  · rw [doutWord_byte _ _ hi, digestByte, chainBytes_getD, hwb]

/-! ### Reset and hidden state -/

/-- Settles O35: every register reads 0 of the reset values. -/
theorem resetGivesTheResetValues : Obligations.ResetGivesTheResetValues := by
  unfold Obligations.ResetGivesTheResetValues
  intro e0
  have hread : ∀ off ∈ [0x10#7, 0x20#7, 0x28#7, 0x40#7, 0x48#7, 0x50#7, 0x58#7, 0x60#7, 0x68#7, 0x70#7, 0x78#7],
      off.toNat % 8 = 0 ∧ readReg Engine.reset (regAt off) = 0#64 := by decide
  refine ⟨fun s => ⟨step_withEvent rfl, fun off hoff => ?_⟩, fun n e he => eq_reset_of_mem_system he⟩
  obtain ⟨hal, hzero⟩ := hread off hoff
  rw [hostRead_of_not_busy hal rfl]
  exact congrArg (fun x => Host.Outcome.next { s with engine := e0, replies := s.replies ++ [x] }) hzero

/-- The digest image reads the first `nn` bytes of the chaining value, and those in FINALIZED alone (R39, R40). -/
theorem digestByte_eq_of_sameView {e e' : Engine} (h : SameView e e') (j : Nat) : digestByte e j = digestByte e' j := by
  obtain ⟨hphase, -, houtlen, -, -, -, -, hchain⟩ := h
  unfold digestByte
  rw [← hphase, ← houtlen]
  split
  · next hd =>
    obtain ⟨hfin, hj⟩ := hd
    have htake := hchain hfin
    rw [← houtlen] at htake
    have hbyte (B : List Byte) : (B.take e.outlen.toNat).getD j 0#8 = B.getD j 0#8 := by
      simp [List.getD_eq_getElem?_getD, hj]
    rw [← hbyte (chainBytes e), htake, hbyte]
  · rfl

/-- No register shows what `SameView` leaves out (R35, R40). -/
theorem readReg_eq_of_sameView {e e' : Engine} (h : SameView e e') (r : Reg) : readReg e r = readReg e' r := by
  have hdigest := digestByte_eq_of_sameView h
  obtain ⟨hphase, hvariant, houtlen, ht, hbuf, herr, hbusy, -⟩ := h
  cases r with
  | status => simp only [readReg, statusWord, bufLen, hphase, hvariant, houtlen, hbuf, herr, hbusy]
  | t0 => simp only [readReg, t0Word_eq, ht, hvariant]
  | t1 => simp only [readReg, t1Word_eq, ht, hvariant]
  | dout k => simp only [readReg, doutWord, hdigest]
  | cmd | din | unmapped => rfl

/-- Settles O26: while BUSY = 1 the value is free, and else it is `readReg`. -/
theorem hiddenStateIsNotReadable : Obligations.HiddenStateIsNotReadable := by
  intro s e' off hal hview
  have hread := readReg_eq_of_sameView hview (regAt off)
  obtain ⟨-, -, -, -, -, -, hbusy, -⟩ := hview
  rw [hostRead_of_aligned hal, hostRead_of_aligned hal, State.performRead, State.performRead, hread, hbusy]
  split <;> exact ⟨_, _, rfl, rfl⟩

end Sys2Proof.Machine
end

section
/-! SUPPORT. The phase after each event (R29), and the compression of the two variants in its containers (R42, R110, R113). -/

namespace Sys2Proof.Machine

/-! ### Phases -/

/-- A CMD write whose command succeeds enters the phase that R29 gives for it, and any other keeps the phase. -/
theorem commandEffect_phase (e : Engine) (k : Nat) (width : AccessWidth) (c : Word64) :
    (commandEffect c e).phase = phaseAfter e (.write k 0x00#7 width c) := by
  obtain ⟨hfail, hsucc⟩ := commandEffect_spec e c
  by_cases hc : commandError e c = .none
  · rw [phaseAfter, if_pos ⟨rfl, hc⟩]
    obtain ⟨-, ⟨v, N, hd, -, -, heq⟩ | ⟨n, hd, ha, -, heq⟩ | ⟨hd, -, heq⟩⟩ := hsucc hc
    · simp [heq, hd]
    · obtain ⟨hphase, -⟩ := Engine.absorb_spec (dinBytes n e.din) e
      simp [heq, hd, hphase, ha]
    · simp [heq, hd]
  · rw [phaseAfter, if_neg (fun h => hc h.2), hfail hc, Engine.raise_phase]

/-- A write to a register other than CMD keeps the phase. -/
@[simp] theorem Engine.writeReg_phase (x : Word64) (e : Engine) (r : Reg) : (e.writeReg x r).phase = e.phase := by
  cases r
  case din =>
    rw [Engine.writeReg, Engine.writeDin]
    split
    · exact Engine.raise_phase _ e
    · rfl
  all_goals rfl

/-- The phase after every event, by the table of R29. -/
theorem eventEffect_phase (ev : HostEvent) (e : Engine) : (eventEffect ev e).phase = phaseAfter e ev := by
  cases ev with
  | reset k => rfl
  | read k off width => rfl
  | write k off width x =>
    rw [eventEffect]
    by_cases hoff : off = 0x00#7
    · rw [if_pos ((regAt_eq_cmd off).mpr hoff), hoff, commandEffect_phase e k width]
    · rw [if_neg (fun h => hoff ((regAt_eq_cmd off).mp h)), Engine.writeReg_phase, phaseAfter,
        if_neg (fun h => hoff h.1)]

/-- Settles O38: a step changes an instance by the effect of its event alone. -/
theorem phasesFollowTheLifecycle : Obligations.PhasesFollowTheLifecycle := by
  intro s s' ev rest k e e' hr hstep he he'
  rw [step_next_at hr hstep he he']
  split
  · exact eventEffect_phase ev e
  · rfl

/-! ### Compression in containers -/

/-- The 64-bit words of BLAKE2b fill their containers (R42). -/
theorem unpackWords_64 (h : Vector Word64 8) : unpackWords 64 h = h := by
  ext i hi
  rw [getElem_unpackWords, BitVec.setWidth_eq]

/-- Narrower words are the low bits of their containers (R42). -/
theorem unpackWords_eq_extractLsb' {w : Nat} (hw : w ≤ 64) (h : Vector Word64 8) :
    unpackWords w h = Vector.ofFn fun j => h[j].extractLsb' 0 w := by
  ext1 i hi
  rw [getElem_unpackWords, Vector.getElem_ofFn, BitVec.setWidth_eq_extractLsb' hw]
  rfl

/-- The compression of BLAKE2b is COMPRESS with its constants (R110, R113). -/
theorem compressAt_blake2b (h : Vector Word64 8) (M : List Byte) (t : BitVec 128) (f : Bool) :
    compressAt .blake2b h M t f = packWords (compress paramsB h M t f) := by
  have ht : t.setWidth (2 * Variant.blake2b.wordBits) = t := BitVec.setWidth_eq t
  rw [compressAt, ht]
  exact congrArg (fun h => packWords (compress paramsB h M t f)) (unpackWords_64 h)

/-- The compression of BLAKE2s is COMPRESS with its constants on the low halves of the containers (R42, R110, R113). -/
theorem compressAt_blake2s (h : Vector Word64 8) (M : List Byte) (t : BitVec 128) (f : Bool) :
    compressAt .blake2s h M t f =
      packWords (compress paramsS (Vector.ofFn fun j => h[j].extractLsb' 0 32) M (t.extractLsb' 0 64) f) := by
  rw [← unpackWords_eq_extractLsb' (by decide), ← BitVec.setWidth_eq_extractLsb' (by decide)]
  rfl

/-- Settles O49, with the words unpacked from and packed into their containers. -/
theorem compressAtIsTheVariantsCompress : Obligations.CompressAtIsTheVariantsCompress := by
  intro h M t f i
  rw [compressAt_blake2b, compressAt_blake2s]
  exact ⟨(getElem_packWords _ i i.isLt).trans (BitVec.setWidth_eq _), getElem_packWords _ i i.isLt⟩

/-- Settles O34: the compression reads the low halves alone and packs 32-bit words. -/
theorem upperContainerBitsAreUnused : Obligations.UpperContainerBitsAreUnused := by
  intro h h' M t t' f
  refine ⟨fun hh ht => ?_, fun i => ?_⟩
  · rw [compressAt_blake2s, compressAt_blake2s, ht, funext hh]
  · have hlt := compressAt_lt h M t f i
    apply BitVec.eq_of_toNat_eq
    rw [BitVec.extractLsb'_toNat, Nat.shiftRight_eq_div_pow, Nat.div_eq_of_lt hlt]
    rfl

end Sys2Proof.Machine
end

section
/-! SUPPORT. Accesses and runs of accesses (R52 to R54, R57, R58, R197, R222): which events stop a step, what a run of defined
events leaves, and the reads and writes that change no instance. -/

namespace Sys2Proof.Machine

/-! ### Runs of defined events -/

/-- Events on other instances do nothing to instance `k`, so leaving them out changes nothing (R58). -/
theorem eventsEffect_filter_target (k : Nat) (evs : List HostEvent) (e : Engine) :
    eventsEffect k (evs.filter fun ev => ev.target == k) e = eventsEffect k evs e := by
  induction evs generalizing e with
  | nil => rfl
  | cons ev evs ih =>
    by_cases hk : ev.target = k
    · rw [List.filter_cons_of_pos (by simpa using hk), eventsEffect_cons hk, eventsEffect_cons hk, ih]
    · rw [List.filter_cons_of_neg (by simpa using hk), ih, eventsEffect, eventsEffect, List.foldl_cons, if_neg hk]

/-- Settles O45: both runs do to instance `k` what the events on it do. -/
theorem instancesAreIndependent : Obligations.InstancesAreIndependent := by
  intro s evs k hacc
  obtain ⟨a, hrunA, hinstA⟩ := runEvents_of_accepted hacc
  obtain ⟨b, hrunB, hinstB⟩ := runEvents_of_accepted fun ev hev => hacc ev (List.mem_of_mem_filter hev)
  refine ⟨a, b, hrunA, hrunB, ?_⟩
  rw [hinstA, hinstB, funext (eventsEffect_filter_target k evs)]

/-- The event is a host read, so it returns a value (R64). -/
def HostEvent.isRead : HostEvent → Bool
  | .read _ _ _ => true
  | .write _ _ _ _ => false
  | .reset _ => false

/-- A read hands the host one value, whatever BUSY is. -/
theorem State.performRead_replies_length (off : BitVec 7) (s : State) :
    (s.performRead off).replies.length = s.replies.length + 1 := by
  unfold State.performRead
  split <;> simp

/-- An event returns one value if it is a read, and none else. -/
theorem perform_replies_length {ev : HostEvent} {s s' : State} (h : perform ev s = .next s') :
    s'.replies.length = s.replies.length + ev.isRead.toNat := by
  cases ev with
  | reset k => cases h; rfl
  | read k off width =>
    simp only [perform] at h
    split at h
    · cases h; exact State.performRead_replies_length off s
    · cases h
  | write k off width x =>
    simp only [perform, commandWrite_eq] at h
    split at h
    · split at h <;> cases h <;> rfl
    · cases h

/-- What a step with an event pending can do to the replies. -/
theorem step_replies_length {s s' : State} {ev : HostEvent} {rest : List HostEvent} (hr : s.requests = ev :: rest)
    (h : step s = .next s') : s'.replies.length = s.replies.length + ev.isRead.toNat := by
  by_cases hk : ev.target < s.instances.length
  · obtain ⟨s0, hsel⟩ := State.select_isSome (s := { s with requests := rest }) hk
    obtain ⟨-, -, -, -, hreplies, -⟩ := State.select_spec hsel
    rw [step_of_cons hr hsel] at h
    rw [perform_replies_length h, hreplies]
  · rw [step_of_missing hr (Nat.not_lt.mp hk)] at h
    cases h

/-- A run of the pending events makes and removes no instance, and returns one value per read. -/
theorem run_lengths (evs : List HostEvent) : ∀ s s' : State, s.requests = evs → run evs.length s = .next s' →
    s'.instances.length = s.instances.length ∧
    s'.replies.length = s.replies.length + (evs.filter HostEvent.isRead).length := by
  induction evs with
  | nil =>
    intro s s' _ h
    cases h
    exact ⟨rfl, rfl⟩
  | cons ev evs ih =>
    intro s s' hr h
    rw [List.length_cons, run_succ] at h
    cases hstep : step s with
    | next s1 =>
      rw [hstep] at h
      obtain ⟨e, -, hset, hrest⟩ := step_next hr hstep
      obtain ⟨hinst, hreplies⟩ := ih s1 s' hrest h
      refine ⟨by rw [hinst, hset, List.length_set], ?_⟩
      rw [hreplies, step_replies_length hr hstep, List.filter_cons]
      cases ev.isRead with
      | true => simp only [Bool.toNat_true, if_true, List.length_cons]; omega
      | false => rfl
    | fault r => rw [hstep] at h; cases h
    | refused r => rw [hstep] at h; cases h

/-- Settles O9: the run completes by `run_of_accepted`, and `run_lengths` counts what it leaves. -/
theorem definedEventsAllComplete : Obligations.DefinedEventsAllComplete := by
  intro evs s hacc
  obtain ⟨s', hrun, hrest, -⟩ := run_of_accepted evs { s with requests := evs } rfl hacc
  obtain ⟨hinst, hreplies⟩ := run_lengths evs _ s' rfl hrun
  refine ⟨s', hrun, hrest, hinst, hreplies.trans ?_⟩
  refine congrArg (s.replies.length + List.length ·) (List.filter_congr fun ev _ => ?_)
  cases ev <;> rfl

/-! ### Accesses that change no instance -/

/-- Where R216 leaves no value open, a register reads 0: it is CMD, DIN or unmapped (R40, R53). -/
theorem readReg_of_not_open {r : Reg} (h : r.openWhileBusy = false) (e : Engine) : readReg e r = 0#64 := by
  cases r with
  | cmd | din | unmapped => rfl
  | status | t0 | t1 | dout => cases h

/-- A read of CMD, DIN or an unmapped offset returns 0, BUSY or not (R53). -/
theorem hostRead_of_not_open {off : BitVec 7} (hal : off.toNat % 8 = 0) (h : (regAt off).openWhileBusy = false)
    (s : State) : hostRead off s = .next { s with replies := s.replies ++ [0#64] } := by
  rw [hostRead_of_aligned hal, State.performRead, if_neg (by simp [h]), readReg_of_not_open h]
  rfl

/-- Settles O22: none of the listed offsets is that of a register with a value to read, and CMD and DIN alone take a
write. -/
theorem meaninglessAccessesAreHarmless : Obligations.MeaninglessAccessesAreHarmless := by
  have hclosed : ∀ off ∈ [0x00#7, 0x08#7, 0x18#7, 0x30#7, 0x38#7], (regAt off).openWhileBusy = false := by decide
  intro s off hal
  refine ⟨fun hoff => hostRead_of_not_open hal (hclosed off hoff) s, fun hoff x => ?_⟩
  simp only [List.mem_cons, List.not_mem_nil, or_false, not_or] at hoff
  obtain ⟨hcmd, hdin⟩ := hoff
  exact hostWrite_of_ignored hal hcmd hdin x s

/-- A run of a pending read of the instance in `engine` begins with that read. -/
theorem runEvents_read_cons {off : BitVec 7} {evs : List HostEvent} {s s' : State}
    (h : hostRead off { s with requests := evs } = .next s') :
    runEvents (.read s.before.length off .w64 :: evs) s = run evs.length s' :=
  run_succ_of_next h

/-- Settles O23: a read changes the replies alone, so the second of two finds the instance as the first did. -/
theorem readsHaveNoSideEffects : Obligations.ReadsHaveNoSideEffects := by
  intro s off hal
  refine ⟨⟨s.performRead off, hostRead_of_aligned hal s, State.instances_performRead off s,
    State.performRead_requests off s⟩, fun hb => ⟨readReg s.engine (regAt off), ?_⟩⟩
  have hfirst := hostRead_of_not_busy hal (s := { s with requests := [.read s.before.length off .w64] }) hb
  have hsecond := hostRead_of_not_busy hal
    (s := { s with requests := [], replies := s.replies ++ [readReg s.engine (regAt off)] }) hb
  rw [runEvents_read_cons hfirst]
  refine (runEvents_read_cons (s := { s with replies := s.replies ++ [readReg s.engine (regAt off)] }) hsecond).trans ?_
  simp

/-! ### Events that stop a step -/

/-- An access of another width than 64 bits or at an unaligned offset is not one the interface defines (R52). -/
theorem accessDefined_eq_false {off : BitVec 7} {width : AccessWidth} (h : width ≠ .w64 ∨ off.toNat % 8 ≠ 0) :
    accessDefined off width = false := by
  obtain hwidth | hal := h
  · simp [accessDefined, hwidth]
  · simp [accessDefined, hal]

/-- A step is refused where the event is, in every state, and its instance exists. -/
theorem step_of_refused {s : State} {ev : HostEvent} {rest : List HostEvent} {r : Refusal}
    (hr : s.requests = ev :: rest) (hk : ev.target < s.instances.length) (h : ∀ s0, perform ev s0 = .refused r) :
    step s = .refused r := by
  obtain ⟨s0, hsel⟩ := State.select_isSome (s := { s with requests := rest }) hk
  rw [step_of_cons hr hsel, h]

/-- Settles O7: `perform` refuses both accesses before it looks at the instance. -/
theorem undefinedAccessesAreRefused : Obligations.UndefinedAccessesAreRefused := by
  intro s rest k off width x hk hbad
  have hdef := accessDefined_eq_false hbad
  exact ⟨fun hr => step_of_refused hr hk fun s0 => by simp [perform, hdef],
    fun hr => step_of_refused hr hk fun s0 => by simp [perform, hdef]⟩

/-- Settles O8: no instance is selected. -/
theorem missingInstancesFault : Obligations.MissingInstancesFault := fun _ _ _ hr hk => step_of_missing hr hk

end Sys2Proof.Machine
end

section
/-! SUPPORT. The command word (R70 to R78): a word cut into the fields of each format, the rows of the opcode table as
conditions on those fields, and the decoder as the inverse of the encoder. -/

namespace Sys2Proof.Machine

/-- Settles O2: `decode_encode` goes through the formats. -/
theorem decodeOfEncodeIsTheCommand : Obligations.DecodeOfEncodeIsTheCommand := fun _ h => decode_encode h

/-- Settles O1: the thirteen words are computed. -/
theorem exampleWordsDecode : Obligations.ExampleWordsDecode := by
  unfold Obligations.ExampleWordsDecode
  decide

/-! ### A word cut into fields -/

/-- Two fields side by side are equal exactly when each is. -/
theorem append_eq_append_iff {m n : Nat} {a a' : BitVec m} {b b' : BitVec n} :
    a ++ b = a' ++ b' ↔ a = a' ∧ b = b' := by
  refine ⟨fun h => ⟨?_, ?_⟩, fun ⟨ha, hb⟩ => ha ▸ hb ▸ rfl⟩
  · simpa only [BitVec.extractLsb'_append_eq_left] using congrArg (BitVec.extractLsb' n m) h
  · simpa only [BitVec.extractLsb'_append_eq_right] using congrArg (BitVec.extractLsb' 0 n) h

/-- Format I (R71, R72): reserved, OUTLEN, reserved, VARIANT, OP. -/
theorem eq_initFields (c : Word64) :
    c = c.extractLsb' 15 49 ++
      (c.extractLsb' 8 7 ++ (c.extractLsb' 5 3 ++ (c.extractLsb' 4 1 ++ c.extractLsb' 0 4))) := by
  simp only [BitVec.extractLsb'_append_extractLsb'_eq_extractLsb', BitVec.extractLsb'_eq_self]

/-- Format U (R71, R73): reserved, NBYTES, reserved, OP. -/
theorem eq_updateFields (c : Word64) :
    c = c.extractLsb' 12 52 ++ (c.extractLsb' 8 4 ++ (c.extractLsb' 4 4 ++ c.extractLsb' 0 4)) := by
  simp only [BitVec.extractLsb'_append_extractLsb'_eq_extractLsb', BitVec.extractLsb'_eq_self]

/-- Format F (R71, R74): reserved, OP. -/
theorem eq_finalFields (c : Word64) : c = c.extractLsb' 4 60 ++ c.extractLsb' 0 4 := by
  simp only [BitVec.extractLsb'_append_extractLsb'_eq_extractLsb', BitVec.extractLsb'_eq_self]

/-! ### The rows of the opcode table (R75) -/

/-- The row of INIT: its mask has ones at the bits that format I fixes and zeros at the operands, so the masked word is
compared with the pattern field by field. -/
theorem rowInit_selects_iff (c : Word64) : rowInit.selects c = true ↔
    c.extractLsb' 15 49 = 0#49 ∧ c.extractLsb' 5 3 = 0#3 ∧ c.extractLsb' 0 4 = 1#4 := by
  calc rowInit.selects c = true
      ↔ (c.extractLsb' 15 49 ++
            (c.extractLsb' 8 7 ++ (c.extractLsb' 5 3 ++ (c.extractLsb' 4 1 ++ c.extractLsb' 0 4)))) &&&
          (BitVec.allOnes 49 ++ (0#7 ++ (BitVec.allOnes 3 ++ (0#1 ++ BitVec.allOnes 4)))) =
          0#49 ++ (0#7 ++ (0#3 ++ (0#1 ++ 1#4))) := by
        rw [← eq_initFields]
        exact beq_iff_eq
    _ ↔ _ := by
      simp only [BitVec.and_append, BitVec.and_allOnes, BitVec.and_zero, append_eq_append_iff, true_and]

/-- The row of UPDATE, field by field of format U. -/
theorem rowUpdate_selects_iff (c : Word64) : rowUpdate.selects c = true ↔
    c.extractLsb' 12 52 = 0#52 ∧ c.extractLsb' 4 4 = 0#4 ∧ c.extractLsb' 0 4 = 2#4 := by
  calc rowUpdate.selects c = true
      ↔ (c.extractLsb' 12 52 ++ (c.extractLsb' 8 4 ++ (c.extractLsb' 4 4 ++ c.extractLsb' 0 4))) &&&
          (BitVec.allOnes 52 ++ (0#4 ++ (BitVec.allOnes 4 ++ BitVec.allOnes 4))) =
          0#52 ++ (0#4 ++ (0#4 ++ 2#4)) := by
        rw [← eq_updateFields]
        exact beq_iff_eq
    _ ↔ _ := by
      simp only [BitVec.and_append, BitVec.and_allOnes, BitVec.and_zero, append_eq_append_iff, true_and]

/-- The row of FINAL, field by field of format F. -/
theorem rowFinal_selects_iff (c : Word64) : rowFinal.selects c = true ↔
    c.extractLsb' 4 60 = 0#60 ∧ c.extractLsb' 0 4 = 3#4 := by
  calc rowFinal.selects c = true
      ↔ (c.extractLsb' 4 60 ++ c.extractLsb' 0 4) &&& (BitVec.allOnes 60 ++ BitVec.allOnes 4) = 0#60 ++ 3#4 := by
        rw [← eq_finalFields]
        exact beq_iff_eq
    _ ↔ _ := by
      simp only [BitVec.and_append, BitVec.and_allOnes, append_eq_append_iff]

/-! ### The word of a command -/

/-- The word of INIT is the fields of format I side by side (R72, R79). -/
theorem encode_init (v : Variant) (outlen : BitVec 7) :
    encode (.init v outlen.toNat) = 0#49 ++ (outlen ++ (0#3 ++ (v.tag ++ 1#4))) := by
  revert outlen
  cases v <;> decide

/-- The word of UPDATE is the fields of format U side by side (R73, R79). -/
theorem encode_update (nbytes : BitVec 4) :
    encode (.update nbytes.toNat) = 0#52 ++ (nbytes ++ (0#4 ++ 2#4)) := by
  revert nbytes
  decide

/-- VARIANT of a word is bit 4 (R3, R72). -/
theorem variantField_tag (c : Word64) : (variantField c).tag = c.extractLsb' 4 1 := by
  apply BitVec.eq_of_getLsbD_eq
  intro i hi
  obtain rfl : i = 0 := by omega
  rw [variantField, BitVec.getLsbD_extractLsb']
  cases c.getLsbD 4 <;> decide

/-! ### The decoder is the inverse of the encoder -/

/-- Everything that decodes to a command (R78). -/
theorem decode_command_cases {c : Word64} {i : Instr} (h : decode c = .command i) :
    (rowInit.selects c = true ∧ i = .init (variantField c) (outlenField c)) ∨
    (rowUpdate.selects c = true ∧ i = .update (nbytesField c)) ∨ (rowFinal.selects c = true ∧ i = .final) := by
  unfold decode at h
  split at h
  · next hrow => cases h; exact .inl ⟨hrow, rfl⟩
  split at h
  · next hrow => cases h; exact .inr (.inl ⟨hrow, rfl⟩)
  split at h
  · next hrow => cases h; exact .inr (.inr ⟨hrow, rfl⟩)
  · cases h

/-- A word is Illegal exactly when no row selects it (R76, R78). -/
theorem decode_illegal_iff (c : Word64) : (∃ r, decode c = .illegal r) ↔
    ¬ rowInit.selects c = true ∧ ¬ rowUpdate.selects c = true ∧ ¬ rowFinal.selects c = true := by
  unfold decode
  split
  · simp [*]
  split
  · simp [*]
  split <;> simp [*]

/-- Settles O3: the row that selects the word fixes every field but the operands, and those are read back. -/
theorem decodedWordIsItsEncoding : Obligations.DecodedWordIsItsEncoding := by
  intro c i h
  obtain ⟨hrow, rfl⟩ | ⟨hrow, rfl⟩ | ⟨hrow, rfl⟩ := decode_command_cases h
  · obtain ⟨hhigh, hlow, hop⟩ := (rowInit_selects_iff c).mp hrow
    refine ⟨decide_eq_true (c.extractLsb' 8 7).isLt, ?_⟩
    rw [outlenField, encode_init, variantField_tag, ← hhigh, ← hlow, ← hop, ← eq_initFields]
  · obtain ⟨hhigh, hlow, hop⟩ := (rowUpdate_selects_iff c).mp hrow
    refine ⟨decide_eq_true (c.extractLsb' 8 4).isLt, ?_⟩
    rw [nbytesField, encode_update, ← hhigh, ← hlow, ← hop, ← eq_updateFields]
  · obtain ⟨hhigh, hop⟩ := (rowFinal_selects_iff c).mp hrow
    refine ⟨rfl, ?_⟩
    have hfinal : encode .final = 0#60 ++ 3#4 := by decide
    rw [hfinal, ← hhigh, ← hop, ← eq_finalFields]

/-- The CMD write of an Illegal word, with BUSY = 0, records ILLEGAL_COMMAND and changes nothing else (R76, R186). -/
theorem hostWrite_illegal {c : Word64} {r : IllegalReason} (h : decode c = .illegal r) {s : State}
    (hb : s.engine.busy = false) : hostWrite 0x00#7 c s = .next (s.recorded .illegalCommand) := by
  have herr : commandError s.engine c = .illegalCommand := by simp [commandError, hb, h]
  have heff : commandEffect c s.engine = s.engine.raise .illegalCommand := by
    rw [(commandEffect_spec s.engine c).1 (by simp [herr]), herr]
  rw [hostWrite_eq, perform_write_cmd, commandWrite_eq, State.onEngine, heff, Engine.raise_eq, State.recorded]

/-- Settles O4: for each value of OP, the rows as conditions on the fields that their formats fix. -/
theorem illegalWordsAreTheReservedAndMalformed : Obligations.IllegalWordsAreTheReservedAndMalformed := by
  intro c
  have hop (n : BitVec 4) : c.extractLsb' 0 4 = n ↔ (c.extractLsb' 0 4).toNat = n.toNat := BitVec.toNat_inj.symm
  refine ⟨?_, fun s r h hb => hostWrite_illegal h hb⟩
  simp only [decode_illegal_iff, rowInit_selects_iff, rowUpdate_selects_iff, rowFinal_selects_iff, hop,
    BitVec.reduceToNat]
  generalize (c.extractLsb' 0 4).toNat = op
  obtain rfl | rfl | rfl | h : op = 1 ∨ op = 2 ∨ op = 3 ∨ (op = 0 ∨ 4 ≤ op) := by omega
  · simp [imp_iff_not_or]
  · simp [imp_iff_not_or]
  · simp
  · have hother : op ≠ 1 ∧ op ≠ 2 ∧ op ≠ 3 := by omega
    simp [h, hother]

end Sys2Proof.Machine
end

section
/-! SUPPORT. The host's sequence for one digest (R80, R212): the values that reads among the events on one instance return, the
context that `hash` leaves, and its chaining value as BLAKE2 of the whole message (R143, R144, R155). -/

namespace Sys2Proof.Machine

/-! ### The values a run of events on one instance returns -/

/-- What an event returns to the host from an instance with BUSY = 0 (R54, R64). -/
def eventReply (ev : HostEvent) (e : Engine) : List Word64 :=
  match ev with
  | .read _ off _ => [readReg e (regAt off)]
  | .write _ _ _ _ => []
  | .reset _ => []

/-- What events on one instance return, in their order, each from the state that those before it leave. -/
def eventsReplies : List HostEvent → Engine → List Word64
  | [], _ => []
  | ev :: evs, e => eventReply ev e ++ eventsReplies evs (eventEffect ev e)

/-- A command leaves BUSY = 0 (R12, R32). -/
theorem commandEffect_busy (c : Word64) {e : Engine} (hb : e.busy = false) : (commandEffect c e).busy = false := by
  obtain ⟨hfail, hsucc⟩ := commandEffect_spec e c
  by_cases hc : commandError e c = .none
  · obtain ⟨-, ⟨v, N, -, -, -, heq⟩ | ⟨n, -, -, -, heq⟩ | ⟨-, -, heq⟩⟩ := hsucc hc
    · rw [heq]; exact hb
    · obtain ⟨-, -, -, -, hbusy, -⟩ := Engine.absorb_spec (dinBytes n e.din) e
      rw [heq, hbusy]; exact hb
    · rw [heq]; exact hb
  · rw [hfail hc, Engine.raise_busy]; exact hb

/-- Every event leaves BUSY = 0 (R12, R32). -/
theorem eventEffect_busy (ev : HostEvent) {e : Engine} (hb : e.busy = false) : (eventEffect ev e).busy = false := by
  cases ev with
  | reset k => rfl
  | read k off width => exact hb
  | write k off width x =>
    rw [eventEffect]
    split
    · exact commandEffect_busy x hb
    · cases regAt off
      case din => rw [Engine.writeReg, Engine.writeDin, if_neg (by simp [hb])]; exact hb
      all_goals exact hb

/-- What one event on the instance in `engine` adds to the replies. -/
theorem perform_replies {ev : HostEvent} {s s' : State} (hb : s.engine.busy = false) (h : perform ev s = .next s') :
    s'.replies = s.replies ++ eventReply ev s.engine := by
  cases ev with
  | reset k => cases h; exact (List.append_nil _).symm
  | read k off width =>
    simp only [perform] at h
    split at h
    · cases h
      rw [State.performRead, if_neg (by simp [hb])]
      rfl
    · cases h
  | write k off width x =>
    simp only [perform, commandWrite_eq] at h
    split at h
    · split at h <;> cases h <;> exact (List.append_nil _).symm
    · cases h

/-- What a step with an event pending adds to the replies. -/
theorem step_replies {s s' : State} {ev : HostEvent} {rest : List HostEvent} {e : Engine}
    (hr : s.requests = ev :: rest) (he : s.instances[ev.target]? = some e) (hb : e.busy = false)
    (h : step s = .next s') : s'.replies = s.replies ++ eventReply ev e := by
  obtain ⟨hk, -⟩ := List.getElem?_eq_some_iff.mp he
  obtain ⟨s0, hsel⟩ := State.select_isSome (s := { s with requests := rest }) hk
  obtain ⟨-, heng, -, -, hreplies, -⟩ := State.select_spec hsel
  obtain rfl : e = s0.engine := Option.some.inj (he.symm.trans heng)
  rw [step_of_cons hr hsel] at h
  rw [perform_replies hb h, hreplies]

/-- What a run of events on instance `k` returns. -/
theorem run_replies {k : Nat} (evs : List HostEvent) : ∀ (s s' : State) (e : Engine), s.requests = evs →
    (∀ ev ∈ evs, ev.target = k) → s.instances[k]? = some e → e.busy = false → run evs.length s = .next s' →
    s'.replies = s.replies ++ eventsReplies evs e := by
  induction evs with
  | nil =>
    intro s s' e _ _ _ _ h
    cases h
    exact (List.append_nil _).symm
  | cons ev evs ih =>
    intro s s' e hr hk he hb h
    obtain ⟨hev, hevs⟩ := List.forall_mem_cons.mp hk
    subst hev
    rw [List.length_cons, run_succ] at h
    cases hstep : step s with
    | next s1 =>
      rw [hstep] at h
      obtain ⟨e0, he0, hset, hrest⟩ := step_next hr hstep
      obtain rfl : e = e0 := Option.some.inj (he.symm.trans he0)
      obtain ⟨hlt, -⟩ := List.getElem?_eq_some_iff.mp he
      have he1 : s1.instances[ev.target]? = some (eventEffect ev e) := by rw [hset, List.getElem?_set_self hlt]
      rw [ih s1 s' _ hrest hevs he1 (eventEffect_busy ev hb) h, step_replies hr he hb hstep, List.append_assoc]
      rfl
    | fault r => rw [hstep] at h; cases h
    | refused r => rw [hstep] at h; cases h

/-- A run of defined events on instance `k` completes and returns what the reads among them read. -/
theorem runEvents_replies {s : State} {k : Nat} {e : Engine} {evs : List HostEvent} (he : s.instances[k]? = some e)
    (hb : e.busy = false) (hk : ∀ ev ∈ evs, ev.target = k)
    (hacc : ∀ ev ∈ evs, ev.accepted s.instances.length = true) :
    ∃ s', runEvents evs s = .next s' ∧ s'.replies = s.replies ++ eventsReplies evs e := by
  obtain ⟨s', hrun, -⟩ := runEvents_of_accepted hacc
  exact ⟨s', hrun, run_replies evs { s with requests := evs } s' e rfl hk he hb hrun⟩

/-- Events that are no reads return nothing, and those after them find the instance as they leave it. -/
theorem eventsReplies_append_of_not_isRead {k : Nat} {evs : List HostEvent}
    (h : ∀ ev ∈ evs, ev.target = k ∧ ev.isRead = false) (evs' : List HostEvent) (e : Engine) :
    eventsReplies (evs ++ evs') e = eventsReplies evs' (eventsEffect k evs e) := by
  induction evs generalizing e with
  | nil => rfl
  | cons ev evs ih =>
    obtain ⟨⟨hk, hread⟩, hevs⟩ := List.forall_mem_cons.mp h
    have hnone : eventReply ev e = [] := by
      cases ev with
      | read => cases hread
      | write | reset => rfl
    rw [List.cons_append, eventsReplies, hnone, List.nil_append, ih hevs, eventsEffect_cons hk]

/-! ### The events of the host's sequence -/

/-- The events that `hash` is made of are writes to instance `k` that the interface defines (R52, R80). -/
theorem hashProgram_writes {k N : Nat} (hk : k < N) (v : Variant) (nn : Nat) (M : List Byte) :
    ∀ ev ∈ hashProgram k v nn M, (ev.target = k ∧ ev.isRead = false) ∧ ev.accepted N = true := by
  have hcmd (i : Instr) : ((wrCmd k i).target = k ∧ (wrCmd k i).isRead = false) ∧ (wrCmd k i).accepted N = true :=
    ⟨⟨rfl, rfl⟩, accepted_wrCmd hk i⟩
  intro ev hev
  obtain rfl | hev := List.mem_cons.mp hev
  · exact hcmd _
  obtain hev | hev := List.mem_append.mp hev
  · obtain ⟨cs, -, hmem⟩ := List.mem_flatMap.mp hev
    refine ⟨?_, accepted_of_mem_absorbChunk hk hmem⟩
    obtain rfl | hmem := List.mem_cons.mp hmem
    · exact ⟨rfl, rfl⟩
    · rw [List.mem_singleton.mp hmem]
      exact (hcmd _).1
  · rw [List.mem_singleton.mp hev]
    exact hcmd _

theorem accepted_rdStatus {k N : Nat} (hk : k < N) : (rdStatus k).accepted N = true := by
  simp [rdStatus, HostEvent.accepted, accessDefined, hk]

theorem accepted_rdDout {k N j : Nat} (hk : k < N) (hj : j < 8) : (rdDout k j).accepted N = true := by
  have hal : (BitVec.ofNat 7 (0x40 + 8 * j)).toNat % 8 = 0 := by rw [doutOffset_toNat hj]; omega
  simp only [rdDout, HostEvent.accepted, accessDefined_w64 hal, hk, decide_true, Bool.and_self]

/-- The host's sequence for one digest is events on instance `k` that the interface defines (R52, R212). -/
theorem digestProgram_accepted {k N nn : Nat} (hk : k < N) (hn : (nn + 7) / 8 ≤ 8) (v : Variant) (M : List Byte) :
    (∀ ev ∈ digestProgram k v nn M, ev.target = k) ∧ ∀ ev ∈ digestProgram k v nn M, ev.accepted N = true := by
  refine forall₂_and.mp fun ev hev => ?_
  obtain hev | hev := List.mem_append.mp hev
  · obtain ⟨⟨htarget, -⟩, hacc⟩ := hashProgram_writes hk v nn M ev hev
    exact ⟨htarget, hacc⟩
  · obtain rfl | hev := List.mem_cons.mp hev
    · exact ⟨rfl, accepted_rdStatus hk⟩
    · obtain ⟨j, hj, rfl⟩ := List.mem_map.mp hev
      exact ⟨rfl, accepted_rdDout hk ((List.mem_range.mp hj).trans_le hn)⟩

/-- STATUS and DOUT0 to DOUT(n - 1), read in this order. -/
theorem eventsReplies_rdStatus_rdDout (k : Nat) {n : Nat} (hn : n ≤ 8) (e : Engine) :
    eventsReplies (rdStatus k :: (List.range n).map (rdDout k)) e =
      statusWord e :: (List.range n).map (doutWord e) := by
  have hdout (L : List Nat) (hL : ∀ j ∈ L, j < 8) : eventsReplies (L.map (rdDout k)) e = L.map (doutWord e) := by
    induction L with
    | nil => rfl
    | cons j L ih =>
      obtain ⟨hj, hL⟩ := List.forall_mem_cons.mp hL
      have hreply : eventReply (rdDout k j) e = [doutWord e j] := by rw [rdDout, eventReply, regAt_dout hj, readReg]
      rw [List.map_cons, eventsReplies, hreply, List.map_cons]
      exact congrArg (doutWord e j :: ·) (ih hL)
  exact congrArg (statusWord e :: ·) (hdout _ fun j hj => (List.mem_range.mp hj).trans_le hn)

/-! ### The context that `hash` leaves -/

/-- The chunks of a message are the message (R80). -/
theorem flatten_chunks (n : Nat) : ∀ M : List Byte, M.length ≤ n → (chunks n M).flatten = M := by
  induction n with
  | zero => intro M h; rw [List.eq_nil_of_length_eq_zero (Nat.le_zero.mp h)]; rfl
  | succ n ih =>
    intro M h
    cases M with
    | nil => rfl
    | cons b M =>
      have hrest : ((b :: M).drop 8).length ≤ n := by rw [List.length_drop]; omega
      rw [chunks, List.flatten_cons, ih _ hrest, List.take_append_drop]

/-- No chunk is longer than DIN (R80). -/
theorem length_le_of_mem_chunks (n : Nat) : ∀ M : List Byte, ∀ cs ∈ chunks n M, cs.length ≤ 8 := by
  induction n with
  | zero => intro M cs h; cases h
  | succ n ih =>
    intro M cs h
    cases M with
    | nil => cases h
    | cons b M =>
      obtain rfl | h := List.mem_cons.mp h
      · exact List.length_take_le _ _
      · exact ih _ cs h

/-- FINAL in ACTIVE (R144). -/
theorem execEffect_final {e : Engine} (hb : e.busy = false) (ha : e.phase = .active) :
    execEffect .final e = e.finish :=
  Engine.command_success hb (by simp [finalCheck, ha])

/-- `hash` absorbs the message into a fresh context and finishes it; DIN keeps the last chunk (R80, R142, R144). -/
theorem eventsEffect_hashProgram (k : Nat) {v : Variant} {nn : Nat} (h1 : 1 ≤ nn) (h2 : nn ≤ v.nnMax) (M : List Byte)
    {e : Engine} (hb : e.busy = false) :
    ∃ x, eventsEffect k (hashProgram k v nn M) e = (((e.create v nn).absorb M).setDin x).finish := by
  obtain ⟨x, hx⟩ := eventsEffect_absorbChunks k (chunks M.length M) (length_le_of_mem_chunks _ M) (e.create v nn) hb rfl
    (Nat.zero_le _)
  rw [flatten_chunks _ M le_rfl] at hx
  obtain ⟨hphase, -, -, -, hbusy, -⟩ := Engine.absorb_spec M (e.create v nn)
  refine ⟨x, ?_⟩
  rw [hashProgram, absorbProgram, eventsEffect_cons (wrCmd_target k _), eventEffect_wrCmd k (wellFormed_init h2),
    execEffect_init h1 h2 hb, eventsEffect_append, hx, eventsEffect_cons (wrCmd_target k _), eventsEffect_nil,
    eventEffect_wrCmd k rfl, execEffect_final (e := ((e.create v nn).absorb M).setDin x) (hbusy.trans hb) hphase]

/-! ### The chaining value is BLAKE2 of the message -/

/-- The compression reads the counter modulo `2^(2w)` (R42, R108). -/
theorem compressAt_congr_counter {v : Variant} {t t' : BitVec 128}
    (ht : t.setWidth (2 * v.wordBits) = t'.setWidth (2 * v.wordBits)) (h : Vector Word64 8) (M : List Byte) (f : Bool) :
    compressAt v h M t f = compressAt v h M t' f := by
  rw [compressAt, ht, compressAt]

/-- The counter `t` stands for `n` message bytes: it is `n` modulo `2^(2w)` (R26, R42). -/
def CounterIs (v : Variant) (t : BitVec 128) (n : Nat) : Prop :=
  t.setWidth (2 * v.wordBits) = (BitVec.ofNat 128 n).setWidth (2 * v.wordBits)

/-- Advancing by `m` bytes adds `m` to that number (R26). -/
theorem CounterIs.advance {v : Variant} {t : BitVec 128} {n : Nat} (h : CounterIs v t n) (m : Nat) :
    CounterIs v (advanceCounter v t m) (n + m) := by
  have hw : 2 * v.wordBits ≤ 128 := by cases v <;> decide
  unfold CounterIs at h ⊢
  rw [advanceCounter, BitVec.setWidth_setWidth_of_le _ hw, BitVec.setWidth_eq, h, BitVec.setWidth_ofNat_of_le hw,
    BitVec.setWidth_ofNat_of_le hw, BitVec.ofNat_add]

/-- The last block of a message (R144). -/
theorem hashBlocks_of_le {v : Variant} {M : List Byte} (hM : M.length ≤ v.blockBytes) (fuel done : Nat)
    (h : Vector Word64 8) : hashBlocks v fuel done h M =
      compressAt v h (zeroPad v.blockBytes M) (BitVec.ofNat 128 (done + M.length)) true := by
  cases fuel with
  | zero => rfl
  | succ fuel => rw [hashBlocks, if_neg (Nat.not_lt.mpr hM)]

/-- A block before the last (R143). -/
theorem hashBlocks_of_lt {v : Variant} {M : List Byte} (hM : v.blockBytes < M.length) (fuel done : Nat)
    (h : Vector Word64 8) : hashBlocks v (fuel + 1) done h M =
      hashBlocks v fuel (done + v.blockBytes)
        (compressAt v h (M.take v.blockBytes) (BitVec.ofNat 128 (done + v.blockBytes)) false) (M.drop v.blockBytes) := by
  rw [hashBlocks, if_pos hM]

/-- UPDATE's loop and FINAL compress the blocks of the buffer as BLAKE2 does those of the rest of the message (R143, R144,
R151, R155). -/
theorem Engine.finish_drainAll_h (fuel : Nat) : ∀ (e : Engine) (done : Nat), e.buf.length ≤ fuel →
    CounterIs e.variant e.t done → e.drainAll.finish.h = hashBlocks e.variant fuel done e.h e.buf := by
  have hlast (fuel : Nat) (e : Engine) (done : Nat) (hle : e.buf.length ≤ e.blockBytes)
      (ht : CounterIs e.variant e.t done) : e.drainAll.finish.h = hashBlocks e.variant fuel done e.h e.buf := by
    rw [Engine.drainAll_of_le hle, hashBlocks_of_le hle, Engine.finish_h, Engine.finish_t]
    exact compressAt_congr_counter (ht.advance _) _ _ _
  induction fuel with
  | zero => exact fun e done hf ht => hlast 0 e done (by omega) ht
  | succ fuel ih =>
    intro e done hf ht
    by_cases hb : e.blockBytes < e.buf.length
    · have hp : 0 < e.blockBytes := Variant.blockBytes_pos _
      have hrest : e.compressOldest.buf.length ≤ fuel := by rw [Engine.compressOldest_buf, List.length_drop]; omega
      have hcounter := ht.advance e.blockBytes
      rw [Engine.drainAll_of_lt hb, ih e.compressOldest (done + e.blockBytes) hrest hcounter, hashBlocks_of_lt hb,
        Engine.compressOldest_h, Engine.compressOldest_t, compressAt_congr_counter hcounter]
      rfl
    · exact hlast _ e done (Nat.not_lt.mp hb) ht

/-- INIT, UPDATE and FINAL leave the chaining value of BLAKE2 of the absorbed message. -/
theorem Engine.finish_absorb_create_h (v : Variant) (nn : Nat) (e : Engine) (M : List Byte) :
    ((e.create v nn).absorb M).finish.h = hashBlocks v M.length 0 (seedChain v nn) M :=
  Engine.finish_drainAll_h M.length ((e.create v nn).append M) 0 le_rfl rfl

/-! ### STATUS and DOUT of a finished context -/

theorem toNat_append_eq_add {m n : Nat} (x : BitVec m) (y : BitVec n) : (x ++ y).toNat = x.toNat * 2 ^ n + y.toNat := by
  rw [BitVec.toNat_append, ← Nat.shiftLeft_add_eq_or_of_lt y.isLt, Nat.shiftLeft_eq]

/-- STATUS as the number its fields make (R37). -/
theorem statusWord_eq (e : Engine) : statusWord e = BitVec.ofNat 64 (e.phase.code.toNat + e.variant.tag.toNat * 2 ^ 2 +
    e.busy.toNat * 2 ^ 3 + e.err.code.toNat * 2 ^ 8 + e.outlen.toNat * 2 ^ 16 + (bufLen e).toNat * 2 ^ 32) := by
  rw [statusWord, ← BitVec.ofNat_toNat]
  congr 1
  simp only [toNat_append_eq_add, BitVec.toNat_ofBool, BitVec.toNat_zero]
  omega

/-- Little-endian words are equal when the bytes they are made of are, a missing byte being 0 (R10). -/
theorem leWord_congr {w : Nat} (hw : 8 ∣ w) {L L' : List Byte} (h : ∀ i, 8 * i < w → L.getD i 0#8 = L'.getD i 0#8) :
    leWord w L = leWord w L' := by
  apply BitVec.eq_of_getLsbD_eq
  intro b hb
  have hi : 8 * (b / 8) < w := by omega
  have hbit (M : List Byte) : (leWord w M).getLsbD b = (M.getD (b / 8) 0#8).getLsbD (b % 8) := by
    rw [← leWord_byte hw M _ hi, BitVec.getLsbD_extractLsb', Nat.div_add_mod]
    simp [Nat.mod_lt]
  rw [hbit, hbit, h _ hi]

/-- The digest in FINALIZED: the first `nn` bytes of the serialised chaining value (R39). -/
theorem digestByte_of_finalized {e : Engine} (hp : e.phase = .finalized) (j : Nat) :
    digestByte e j = ((chainBytes e).take e.outlen.toNat).getD j 0#8 := by
  by_cases hj : j < e.outlen.toNat
  · simp [digestByte, hp, hj, List.getD_eq_getElem?_getD]
  · simp [digestByte, hj, List.getD_eq_getElem?_getD]

/-- DOUTj in FINALIZED: bytes `8j` to `8j + 7` of the digest (R39). -/
theorem doutWord_of_finalized {e : Engine} (hp : e.phase = .finalized) (j : Nat) :
    doutWord e j = leWord 64 ((((chainBytes e).take e.outlen.toNat).drop (8 * j)).take 8) := by
  refine leWord_congr (by decide) fun i hi => ?_
  have hi : i < 8 := by omega
  simp only [digestByte_of_finalized hp]
  simp [List.getD_eq_getElem?_getD, hi]

/-- What STATUS and DOUT read of the context that `hash` leaves, whatever DIN holds (R37, R39). -/
theorem statusWord_doutWord_hashed {v : Variant} {nn : Nat} (hnn : nn ≤ v.nnMax) (M : List Byte) {e f : Engine}
    (hb : e.busy = false) {x : Word64} (hf : f = (((e.create v nn).absorb M).setDin x).finish) :
    statusWord f = BitVec.ofNat 64 (2 + v.tag.toNat * 2 ^ 2 + nn * 2 ^ 16) ∧
    ∀ j, doutWord f j = leWord 64 (((blake2 v nn M).drop (8 * j)).take 8) := by
  obtain ⟨-, hvariant, houtlen, herr, hbusy, -⟩ := Engine.absorb_spec M (e.create v nn)
  have hphase : f.phase = .finalized := hf ▸ rfl
  have hbuf : bufLen f = 0#8 := hf ▸ rfl
  have hv : f.variant = v := hf ▸ hvariant
  have herr' : f.err = .none := hf ▸ herr
  have hbusy' : f.busy = false := hf ▸ hbusy.trans hb
  have hh : f.h = hashBlocks v M.length 0 (seedChain v nn) M := hf ▸ Engine.finish_absorb_create_h v nn e M
  have hlen : f.outlen.toNat = nn := by
    have hmax := Variant.nnMax_le v
    have ho : f.outlen = BitVec.ofNat 7 nn := hf ▸ houtlen
    rw [ho, BitVec.toNat_ofNat, Nat.mod_eq_of_lt (by omega)]
  refine ⟨?_, fun j => ?_⟩
  · rw [statusWord_eq, hphase, hv, hbusy', herr', hlen, hbuf]
    simp [Phase.code, ErrCode.code]
  · rw [doutWord_of_finalized hphase, chainBytes, hh, hv, hlen, blake2]

/-- Settles O44: `hash` returns nothing and leaves a finished context, which the reads after it show. -/
theorem theHostSequenceYieldsTheBlake2Digest : Obligations.TheHostSequenceYieldsTheBlake2Digest := by
  intro s k e v nn M he hb h1 h2
  obtain ⟨hk, -⟩ := List.getElem?_eq_some_iff.mp he
  have hn : (nn + 7) / 8 ≤ 8 := by have := Variant.nnMax_le v; omega
  have hwrites := hashProgram_writes hk v nn M
  obtain ⟨htarget, hacc⟩ := digestProgram_accepted hk hn v M
  obtain ⟨s', hrun, hreplies⟩ := runEvents_replies he hb htarget hacc
  obtain ⟨x, hx⟩ := eventsEffect_hashProgram k h1 h2 M hb
  obtain ⟨hstatus, hdout⟩ := statusWord_doutWord_hashed h2 M hb hx
  refine ⟨s', hrun, hreplies.trans ?_⟩
  rw [digestProgram, eventsReplies_append_of_not_isRead fun ev hev => (hwrites ev hev).1,
    eventsReplies_rdStatus_rdDout k hn, hstatus, funext hdout]
  cases v <;> rfl

end Sys2Proof.Machine
end

section
/-! SUPPORT. The compression engine word by word: rotation (R100), the tables (R101 to R104), message words (R105), G on the
four words of a call (R106, R107), the initialised vector (R108), and the rounds with the feed-forward (R109, R110). -/

namespace Sys2Proof.Machine

/-! ### Rotation (R100) -/

/-- Below the width, the two shifts of ROTR are the rotation to the right. -/
theorem rotr_eq_rotateRight {w : Nat} (x : BitVec w) {n : Nat} (hn : n < w) : rotr x n = x.rotateRight n := by
  rw [rotr, BitVec.rotateRight_def, Nat.mod_eq_of_lt hn]

/-- A rotation to the right by one less than the width is one to the left by 1 (log entry 15). -/
theorem rotr_pred_eq_rotateLeft {w : Nat} (x : BitVec w) (hw : 1 < w) : rotr x (w - 1) = x.rotateLeft 1 := by
  rw [rotr, BitVec.rotateLeft_def, Nat.mod_eq_of_lt hw, Nat.sub_sub_self hw.le, BitVec.or_comm]

/-- A rotation by half the width swaps the halves. -/
theorem rotr_half {k : Nat} (x : BitVec (k + k)) : rotr x k = x.extractLsb' 0 k ++ x.extractLsb' k k := by
  apply BitVec.eq_of_getLsbD_eq
  intro i hi
  simp only [rotr, BitVec.getLsbD_or, BitVec.getLsbD_ushiftRight, BitVec.getLsbD_shiftLeft, BitVec.getLsbD_append,
    BitVec.getLsbD_extractLsb', hi, Nat.add_sub_cancel, decide_true, Bool.true_and]
  by_cases hk : i < k
  · simp [hk]
  · rw [BitVec.getLsbD_of_ge x (k + i) (by omega)]
    simp [hk, show i - k < k by omega]

/-- Settles O27: the shifts are a rotation, and the swaps are its case at half the width. -/
theorem rotrRotatesToTheRight : Obligations.RotrRotatesToTheRight := by
  refine ⟨fun w x n h0 hn => ⟨rotr_eq_rotateRight x hn, rotr_pred_eq_rotateLeft x (by omega)⟩, ?_, ?_, by decide⟩
  · exact rotr_half (k := 32)
  · exact rotr_half (k := 16)

/-! ### Tables (R101 to R104) -/

/-- The ten schedule rows recur (R104). -/
theorem sigmaRow_mod (r : Nat) : sigmaRow (r % 10) = sigmaRow r := by
  simp only [sigmaRow, Nat.mod_mod]

/-- Settles O28: the tables by evaluation, the recurrence of the rows for every round. -/
theorem tablesAreAsTheRulesDescribe : Obligations.TablesAreAsTheRulesDescribe := by
  exact ⟨rfl, rfl, rfl, rfl, rfl, rfl, rfl, rfl, rfl, rfl, rfl, rfl, rfl, rfl, rfl, rfl, fun r => (sigmaRow_mod r).symm,
    by decide, (sigmaRow_mod 10).symm, (sigmaRow_mod 11).symm, rfl, rfl, by decide⟩

/-! ### Message words (R105) -/

/-- Both widths are whole numbers of bytes. -/
theorem Variant.eight_dvd_wordBits (v : Variant) : 8 ∣ v.wordBits := by cases v <;> decide

/-- Byte `j` of the little-endian word `k` of a byte sequence (R10). -/
theorem leWordAt_byte {w : Nat} (hw : 8 ∣ w) (B : List Byte) (k : Nat) {j : Nat} (hj : j < w / 8) :
    (leWordAt w B k).extractLsb' (8 * j) 8 = B.getD (k * (w / 8) + j) 0#8 := by
  rw [leWordAt, leWord_byte hw _ j (by omega)]
  simp [List.getD_eq_getElem?_getD, hj]

theorem getElem_parseBlock (w : Nat) (M : List Byte) (i : Fin 16) : (parseBlock w M)[i] = leWordAt w M i :=
  Vector.getElem_ofFn i.isLt

/-- Settles O29: `m[i]` is the little-endian word `i` of the block. -/
theorem messageWordsAreLittleEndian : Obligations.MessageWordsAreLittleEndian := by
  intro v M i j _ hj
  rw [getElem_parseBlock]
  exact leWordAt_byte (Variant.eight_dvd_wordBits v) M i hj

/-! ### The G function (R106, R107) -/

/-- Half of G: each of the four words is updated once, with one message word and two rotation amounts. -/
def mixHalf {w : Nat} (r r' : Nat) (v : Vector (BitVec w) 16) (a b c d : Fin 16) (x : BitVec w) :
    Vector (BitVec w) 16 :=
  let v := v.set a (v[a] + v[b] + x)
  let v := v.set d (rotr (v[d] ^^^ v[a]) r)
  let v := v.set c (v[c] + v[d])
  v.set b (rotr (v[b] ^^^ v[c]) r')

/-- The last four updates of G are the first four again, with the other message word and rotation amounts (R106). -/
theorem mixG_eq_mixHalf {w : Nat} (P : Params w) (v : Vector (BitVec w) 16) (a b c d : Fin 16) (x y : BitVec w) :
    mixG P v a b c d x y = mixHalf P.r3 P.r4 (mixHalf P.r1 P.r2 v a b c d x) a b c d y := rfl

/-- A write to one word of a vector, at an index that carries its bound. -/
theorem getElem_set_fin {α : Type} {n : Nat} (v : Vector α n) (i j : Fin n) (x : α) :
    (v.set i x)[j] = if i = j then x else v[j] := by
  simp [Vector.getElem_set, Fin.ext_iff]

/-- Vectors that agree at every index that carries its bound are equal. -/
theorem vector_ext_fin {α : Type} {n : Nat} {v v' : Vector α n} (h : ∀ i : Fin n, v[i] = v'[i]) : v = v' :=
  Vector.ext fun i hi => h ⟨i, hi⟩

/-- On four distinct indices no update of a half of G reads or writes a word of another name. -/
theorem mixHalf_spec {w : Nat} (r r' : Nat) (v : Vector (BitVec w) 16) {a b c d : Fin 16} (x : BitVec w)
    (hdistinct : [a, b, c, d].Nodup) :
    let a1 := v[a] + v[b] + x
    let d1 := rotr (v[d] ^^^ a1) r
    let c1 := v[c] + d1
    let b1 := rotr (v[b] ^^^ c1) r'
    let v' := mixHalf r r' v a b c d x
    v'[a] = a1 ∧ v'[b] = b1 ∧ v'[c] = c1 ∧ v'[d] = d1 ∧ ∀ i : Fin 16, i ∉ [a, b, c, d] → v'[i] = v[i] := by
  simp only [List.nodup_cons, List.mem_cons, List.not_mem_nil, or_false, not_or] at hdistinct
  obtain ⟨⟨hab, hac, had⟩, ⟨hbc, hbd⟩, hcd, -⟩ := hdistinct
  refine ⟨?_, ?_, ?_, ?_, fun i hi => ?_⟩
  case refine_5 =>
    simp only [List.mem_cons, List.not_mem_nil, or_false, not_or] at hi
    obtain ⟨ha, hb, hc, hd⟩ := hi
    simp only [mixHalf, getElem_set_fin, Ne.symm ha, Ne.symm hb, Ne.symm hc, Ne.symm hd, if_false]
  all_goals
    simp only [mixHalf, getElem_set_fin, hab, hac, had, hbc, hbd, hcd, Ne.symm hab, Ne.symm hac, Ne.symm had,
      Ne.symm hbc, Ne.symm hbd, Ne.symm hcd, if_true, if_false]

/-- Settles O30: the second half of G starts from the four words that the first leaves. -/
theorem mixingUpdatesFourWords : Obligations.MixingUpdatesFourWords := by
  intro w P v a b c d x y hdistinct
  obtain ⟨ha, hb, hc, hd, hframe⟩ := mixHalf_spec P.r1 P.r2 v x hdistinct
  obtain ⟨ha', hb', hc', hd', hframe'⟩ := mixHalf_spec P.r3 P.r4 (mixHalf P.r1 P.r2 v a b c d x) y hdistinct
  simp only [ha, hb, hc, hd] at ha' hb' hc' hd'
  rw [mixG_eq_mixHalf]
  exact ⟨ha', hb', hc', hd', fun i hi => (hframe' i hi).trans (hframe i hi)⟩

/-- G leaves the words it is not called on. -/
theorem mixG_frame {w : Nat} (P : Params w) (v : Vector (BitVec w) 16) {a b c d : Fin 16} (x y : BitVec w)
    (hdistinct : [a, b, c, d].Nodup) {i : Fin 16} (hi : i ∉ [a, b, c, d]) : (mixG P v a b c d x y)[i] = v[i] := by
  obtain ⟨-, -, -, -, hframe⟩ := mixingUpdatesFourWords w P v a b c d x y hdistinct
  exact hframe i hi

/-- The four words that G leaves depend on nothing of `v` but those four words. -/
theorem mixG_congr {w : Nat} (P : Params w) {v v' : Vector (BitVec w) 16} {a b c d : Fin 16} (x y : BitVec w)
    (hdistinct : [a, b, c, d].Nodup) (hv : ∀ j ∈ [a, b, c, d], v[j] = v'[j]) {i : Fin 16} (hi : i ∈ [a, b, c, d]) :
    (mixG P v a b c d x y)[i] = (mixG P v' a b c d x y)[i] := by
  obtain ⟨ha, hb, hc, hd, -⟩ := mixingUpdatesFourWords w P v a b c d x y hdistinct
  obtain ⟨ha', hb', hc', hd', -⟩ := mixingUpdatesFourWords w P v' a b c d x y hdistinct
  simp only [List.forall_mem_cons] at hv
  obtain ⟨hva, hvb, hvc, hvd, -⟩ := hv
  simp only [List.mem_cons, List.not_mem_nil, or_false] at hi
  rcases hi with rfl | rfl | rfl | rfl
  · rw [ha, ha', hva, hvb, hvc, hvd]
  · rw [hb, hb', hva, hvb, hvc, hvd]
  · rw [hc, hc', hva, hvb, hvc, hvd]
  · rw [hd, hd', hva, hvb, hvc, hvd]

/-- A call of G on other words, before or after, makes no difference to the words outside that call. -/
theorem getElem_mixG_mixG_of_not_mem {w : Nat} (P : Params w) (v : Vector (BitVec w) 16) {a b c d a' b' c' d' : Fin 16}
    (x y x' y' : BitVec w) (hdistinct : [a, b, c, d].Nodup) (hdistinct' : [a', b', c', d'].Nodup)
    (hdisjoint : [a, b, c, d].Disjoint [a', b', c', d']) {i : Fin 16} (hi : i ∉ [a', b', c', d']) :
    (mixG P (mixG P v a b c d x y) a' b' c' d' x' y')[i] = (mixG P (mixG P v a' b' c' d' x' y') a b c d x y)[i] := by
  rw [mixG_frame P _ x' y' hdistinct' hi]
  by_cases h : i ∈ [a, b, c, d]
  · exact mixG_congr P x y hdistinct (fun j hj => (mixG_frame P v x' y' hdistinct' (hdisjoint hj)).symm) h
  · rw [mixG_frame P v x y hdistinct h, mixG_frame P _ x y hdistinct h, mixG_frame P v x' y' hdistinct' hi]

/-- Settles O31: every word is outside one of the two calls. -/
theorem disjointMixingCallsCommute : Obligations.DisjointMixingCallsCommute := by
  intro w P v a b c d a' b' c' d' x y x' y' hdistinct
  obtain ⟨hn, hn', hdisjoint⟩ := List.nodup_append'.mp (show ([a, b, c, d] ++ [a', b', c', d']).Nodup from hdistinct)
  refine vector_ext_fin fun i => ?_
  by_cases h : i ∈ [a', b', c', d']
  · exact (getElem_mixG_mixG_of_not_mem P v x' y' x y hn' hn hdisjoint.symm (hdisjoint.symm h)).symm
  · exact getElem_mixG_mixG_of_not_mem P v x y x' y' hn hn' hdisjoint h

/-! ### The working vector (R108) -/

/-- The counter's words at width `w` are its residues (R26). -/
theorem counterLow_eq_ofNat {w : Nat} (t : BitVec (2 * w)) : counterLow t = BitVec.ofNat w t.toNat := by
  apply BitVec.eq_of_toNat_eq
  rw [counterLow_toNat, BitVec.toNat_ofNat]

theorem counterHigh_eq_ofNat {w : Nat} (t : BitVec (2 * w)) : counterHigh t = BitVec.ofNat w (t.toNat / 2 ^ w) := by
  apply BitVec.eq_of_toNat_eq
  rw [counterHigh_toNat, BitVec.toNat_ofNat]

/-- Every word but the counter's two and the flag's is a word of the chaining value or of the IV. -/
theorem getElem_initVector_of_ne {w : Nat} (P : Params w) (h : Vector (BitVec w) 8) (t : BitVec (2 * w)) (f : Bool)
    {i : Nat} (hi : i < 16) (h12 : 12 ≠ i) (h13 : 13 ≠ i) (h14 : 14 ≠ i) :
    (initVector P h t f)[i] = if _ : i < 8 then h[i] else P.iv[i - 8] := by
  cases f <;> simp [initVector, h12, h13, h14]

/-- Settles O32: the counter is XORed into words 12 and 13, and all ones into word 14 in the last block. -/
theorem workingVectorIsInitialised : Obligations.WorkingVectorIsInitialised := by
  intro w P h t f
  refine ⟨fun i => ?_, fun i => ?_, ?_, ?_, ?_, ?_⟩
  · rw [getElem_initVector_of_ne P h t f (by omega) (by omega) (by omega) (by omega), dif_pos i.isLt]
    rfl
  · rw [getElem_initVector_of_ne P h t f (by omega) (by omega) (by omega) (by omega), dif_neg (by omega)]
    rfl
  · rw [← counterLow_eq_ofNat]
    cases f <;> simp [initVector]
  · rw [← counterHigh_eq_ofNat]
    cases f <;> simp [initVector]
  · cases f <;> simp [initVector, BitVec.xor_allOnes]
  · rw [getElem_initVector_of_ne P h t f (by decide) (by decide) (by decide) (by decide), dif_neg (by decide)]

/-! ### Rounds and feed-forward (R107, R109, R110) -/

theorem getElem_feedForward {w : Nat} (h : Vector (BitVec w) 8) (v : Vector (BitVec w) 16) (i : Fin 8) :
    (feedForward h v)[i] = h[i] ^^^ v[i.val] ^^^ v[i.val + 8] :=
  Vector.getElem_ofFn i.isLt

/-- The rounds in their order, as a fold over their numbers. -/
theorem mixRounds_eq_foldl {w : Nat} (P : Params w) (m v : Vector (BitVec w) 16) (n : Nat) :
    mixRounds P m n v = (List.range n).foldl (fun v r => mixRound P v m r) v := by
  induction n with
  | zero => rfl
  | succ n ih => rw [mixRounds, ih, List.range_succ, List.foldl_concat]

/-- Settles O33: the four column calls and the four diagonal calls of a round are its eight calls of G. -/
theorem compressRunsTheRounds : Obligations.CompressRunsTheRounds := by
  intro w P h M t f i
  rw [compress, mixRounds_eq_foldl]
  exact getElem_feedForward h _ i

end Sys2Proof.Machine
end

section
/-! SUPPORT. A digest does not depend on how its message was cut into chunks (R150): a run of INIT and chunks returns
nothing, and FINAL with the reads of DOUT after it shows the context that the concatenation of the chunks leaves. -/

namespace Sys2Proof.Machine

/-- The events of a chunk are writes to their instance. -/
theorem absorbChunk_writes {k : Nat} {cs : List Byte} {ev : HostEvent} (h : ev ∈ absorbChunk k cs) :
    ev.target = k ∧ ev.isRead = false := by
  obtain rfl | h := List.mem_cons.mp h
  · exact ⟨rfl, rfl⟩
  · rw [List.mem_singleton.mp h]
    exact ⟨rfl, rfl⟩

/-- Writes to instance `k` return nothing to the host (R64). -/
theorem runEvents_replies_of_not_isRead {s s' : State} {k : Nat} {e : Engine} {evs : List HostEvent}
    (he : s.instances[k]? = some e) (hb : e.busy = false) (hevs : ∀ ev ∈ evs, ev.target = k ∧ ev.isRead = false)
    (hrun : runEvents evs s = .next s') : s'.replies = s.replies := by
  have hnone : eventsReplies evs e = [] := by
    simpa [eventsReplies] using eventsReplies_append_of_not_isRead hevs [] e
  rw [run_replies evs { s with requests := evs } s' e rfl (fun ev hev => (hevs ev hev).1) he hb hrun, hnone,
    List.append_nil]

/-- INIT and chunks return nothing, and leave the concatenation of the chunks absorbed; only DIN tells the splits apart. -/
theorem runEvents_absorbChunks_replies {s : State} {k : Nat} {e : Engine} {v : Variant} {nn : Nat}
    {css : List (List Byte)} (he : s.instances[k]? = some e) (hb : e.busy = false) (h1 : 1 ≤ nn) (h2 : nn ≤ v.nnMax)
    (hcss : ∀ cs ∈ css, cs.length ≤ 8) :
    ∃ s' x, runEvents (wrCmd k (.init v nn) :: css.flatMap (absorbChunk k)) s = .next s' ∧
      s'.instances[k]? = some (((e.create v nn).absorb css.flatten).setDin x) ∧ s'.replies = s.replies := by
  obtain ⟨s', x, hrun, hinst⟩ := runEvents_absorbChunks he hb h1 h2 hcss
  refine ⟨s', x, hrun, hinst, runEvents_replies_of_not_isRead he hb (fun ev hev => ?_) hrun⟩
  obtain rfl | hev := List.mem_cons.mp hev
  · exact ⟨rfl, rfl⟩
  · obtain ⟨cs, -, hmem⟩ := List.mem_flatMap.mp hev
    exact absorbChunk_writes hmem

/-- FINAL in ACTIVE and then the reads of DOUT0 to DOUT7 return the digest registers of the finished context (R144, R147). -/
theorem runEvents_final_rdDout {s : State} {k : Nat} {e : Engine} (he : s.instances[k]? = some e) (hb : e.busy = false)
    (ha : e.phase = .active) : ∃ s', runEvents (wrCmd k .final :: (List.range 8).map (rdDout k)) s = .next s' ∧
      s'.replies = s.replies ++ (List.range 8).map (doutWord e.finish) := by
  obtain ⟨hk, -⟩ := List.getElem?_eq_some_iff.mp he
  have hevs : ∀ ev ∈ wrCmd k .final :: (List.range 8).map (rdDout k),
      ev.target = k ∧ ev.accepted s.instances.length = true := by
    intro ev hev
    obtain rfl | hev := List.mem_cons.mp hev
    · exact ⟨rfl, accepted_wrCmd hk _⟩
    · obtain ⟨j, hj, rfl⟩ := List.mem_map.mp hev
      exact ⟨rfl, accepted_rdDout hk (List.mem_range.mp hj)⟩
  obtain ⟨htarget, hacc⟩ := forall₂_and.mp hevs
  obtain ⟨s', hrun, hreplies⟩ := runEvents_replies he hb htarget hacc
  obtain ⟨-, hdout⟩ := List.cons.inj (eventsReplies_rdStatus_rdDout k le_rfl e.finish)
  have heff : eventEffect (wrCmd k .final) e = e.finish := by
    rw [eventEffect_wrCmd k rfl, execEffect_final hb ha]
  refine ⟨s', hrun, hreplies.trans ?_⟩
  rw [eventsReplies, heff]
  exact congrArg (s.replies ++ ·) hdout

/-- The digest registers do not read DIN (R39, R40). -/
theorem doutWord_finish_setDin (x : Word64) (e : Engine) : doutWord (e.setDin x).finish = doutWord e.finish := rfl

/-- Settles O41: both runs absorb the same bytes into the same fresh context and differ in DIN alone, which neither FINAL nor
DOUT reads. -/
theorem chunkingDoesNotMatter : Obligations.ChunkingDoesNotMatter := by
  intro s k e v nn css css' he hb h1 h2 hcss hcss' hflat
  obtain ⟨a, x, hrunA, hinstA, hrepA⟩ := runEvents_absorbChunks_replies he hb h1 h2 hcss
  obtain ⟨b, y, hrunB, hinstB, hrepB⟩ := runEvents_absorbChunks_replies he hb h1 h2 hcss'
  rw [← hflat] at hinstB
  obtain ⟨hphase, -, -, -, hbusy, -⟩ := Engine.absorb_spec css.flatten (e.create v nn)
  obtain ⟨fa, hfinA, hdoutA⟩ := runEvents_final_rdDout hinstA (hbusy.trans hb) hphase
  obtain ⟨fb, hfinB, hdoutB⟩ := runEvents_final_rdDout hinstB (hbusy.trans hb) hphase
  refine ⟨a, b, _, _, fa, fb, hrunA, hinstA, hrunB, hinstB, rfl, rfl, rfl, rfl, hfinA, hfinB, ?_⟩
  rw [hdoutA, hdoutB, hrepA, hrepB, doutWord_finish_setDin, doutWord_finish_setDin]

end Sys2Proof.Machine
end

section
/-! SUPPORT. The three commands of the digest state machine (R140 to R144): the whole next state each gives, the error it
records instead, and what every command leaves unchanged. -/

namespace Sys2Proof.Machine

/-- Recording an error on the instance in `engine` (R186). -/
theorem State.onEngine_raise (k : ErrCode) (s : State) : s.onEngine (Engine.raise k) = s.recorded k := by
  rw [State.onEngine, Engine.raise_eq, State.recorded]

/-- A command that changes the instance in `engine` to `e'`. -/
theorem exec_of_execEffect {i : Instr} {s : State} {e' : Engine} (h : execEffect i s.engine = e') :
    exec i s = .next { s with engine := e' } := by
  rw [exec_eq, State.onEngine, h]

/-- A command that fails a check of its own answers the state with that error recorded (R185, R186). -/
theorem exec_of_check {i : Instr} {check : Engine → ErrCode} {effect : Engine → Engine} {s : State} {k : ErrCode}
    (hi : execEffect i = Engine.command check effect) (hb : s.engine.busy = false) (hc : check s.engine = k)
    (hk : k ≠ .none) : exec i s = .next (s.recorded k) := by
  have heff : execEffect i s.engine = s.engine.raise k := by rw [hi, Engine.command_failure hb (hc ▸ hk), hc]
  rw [exec_of_execEffect heff, ← State.onEngine_raise, State.onEngine]

/-! ### INIT (R142) -/

theorem initCheck_of_rejected {v : Variant} {N : Nat} (h : N = 0 ∨ v.nnMax < N) (e : Engine) :
    initCheck v N e = .invalidParameter := by
  have hrej : outlenAccepted v N = false := by
    obtain rfl | hlt := h
    · rfl
    · simp [outlenAccepted, Nat.not_le.mpr hlt]
  rw [initCheck, hrej, if_neg Bool.false_ne_true]

/-- The parameter word of a length that fits it, in a 64-bit container (R141). -/
theorem paramWord_setWidth {N : Nat} (h : N < 2 ^ 32) :
    (paramWord N).setWidth 64 = 0x01010000#64 ||| BitVec.ofNat 64 N := by
  rw [paramWord, BitVec.setWidth_or, BitVec.setWidth_or, Laws.LegalWord.ofNat_of_fits h (by decide)]
  rfl

/-- INIT's chaining value for BLAKE2b, word by word (R101, R142). -/
theorem seedChain_blake2b {N : Nat} (h : N < 2 ^ 32) : seedChain .blake2b N =
    #v[0x6A09E667F3BCC908#64 ^^^ (0x01010000#64 ||| BitVec.ofNat 64 N), 0xBB67AE8584CAA73B#64,
      0x3C6EF372FE94F82B#64, 0xA54FF53A5F1D36F1#64, 0x510E527FADE682D1#64, 0x9B05688C2B3E6C1F#64,
      0x1F83D9ABFB41BD6B#64, 0x5BE0CD19137E2179#64] := by
  rw [← paramWord_setWidth h]
  rfl

/-- INIT's chaining value for BLAKE2s, word by word in containers (R42, R101, R142). -/
theorem seedChain_blake2s {N : Nat} (h : N < 2 ^ 32) : seedChain .blake2s N =
    #v[0x6A09E667#64 ^^^ (0x01010000#64 ||| BitVec.ofNat 64 N), 0xBB67AE85#64, 0x3C6EF372#64, 0xA54FF53A#64,
      0x510E527F#64, 0x9B05688C#64, 0x1F83D9AB#64, 0x5BE0CD19#64] := by
  rw [← paramWord_setWidth h]
  rfl

/-- Settles O11: a length that INIT accepts fits the parameter word, so the seed is the listed one. -/
theorem initCreatesAFreshContext : Obligations.InitCreatesAFreshContext := by
  intro s v N hb
  refine ⟨fun h1 h2 => ?_, fun hrej => ?_⟩
  · have hmax : N ≤ v.nnMax := h2
    have hN : N < 2 ^ 32 := by have := Variant.nnMax_le v; omega
    rw [exec_of_execEffect (execEffect_init h1 hmax hb), Engine.create]
    cases v with
    | blake2b => rw [seedChain_blake2b hN]
    | blake2s => rw [seedChain_blake2s hN]
  · have hrej' : N = 0 ∨ v.nnMax < N := hrej
    exact exec_of_check (effect := Engine.create v N) rfl hb (initCheck_of_rejected hrej' _) (by decide)

/-! ### UPDATE (R143) and FINAL (R144) -/

/-- The advanced counter as the number it is (R26). -/
theorem advanceCounter_eq_ofNat (v : Variant) (t : BitVec 128) (n : Nat) : advanceCounter v t n =
    BitVec.ofNat 128 ((t.toNat + n) % 2 ^ (2 * v.wordBits)) := by
  rw [← advanceCounter_toNat, BitVec.ofNat_toNat, BitVec.setWidth_eq]

/-- UPDATE's loop on at most a block and 8 bytes (R143): its body runs once where more than a block is buffered. -/
theorem Engine.absorb_of_length_le {bytes : List Byte} {e : Engine} (hbuf : e.buf.length ≤ e.blockBytes)
    (hbytes : bytes.length ≤ 8) : e.absorb bytes =
      if e.blockBytes < (e.buf ++ bytes).length then Engine.compressOldest { e with buf := e.buf ++ bytes }
      else { e with buf := e.buf ++ bytes } := by
  split
  · next hlt =>
    have hbs : 64 ≤ e.blockBytes := by unfold Engine.blockBytes; cases e.variant <;> decide
    exact Engine.absorb_of_lt hlt (by rw [List.length_append]; omega)
  · next hle => exact Engine.absorb_of_le (Nat.not_lt.mp hle)

/-- Settles O12: `Engine.absorb_of_length_le` on the bytes that UPDATE takes from DIN. -/
theorem updateAbsorbsTheLatchBytes : Obligations.UpdateAbsorbsTheLatchBytes := by
  intro s n hb
  refine ⟨fun ha hn hbuf => ?_, fun hna => ?_, fun ha hn => ?_⟩
  · intro e B bs t
    have hbs : e.blockBytes = bs := rfl
    have ht : advanceCounter e.variant e.t bs = t := by
      rw [advanceCounter_eq_ofNat]
      cases hv : e.variant <;> simp [t, hv, Variant.wordBits]
    have hlen : (dinBytes n e.din).length ≤ 8 := by simpa [dinBytes, leBytes] using hn
    rw [exec_of_execEffect ((execEffect_update hn hb ha).trans (Engine.absorb_of_length_le hbuf hlen)), ← ht, ← hbs]
    rfl
  · exact exec_of_check (check := updateCheck n) rfl hb (by simp [updateCheck, hna]) (by decide)
  · exact exec_of_check (check := updateCheck n) rfl hb (by simp [updateCheck, ha, nbytesAccepted, hn]) (by decide)

/-- Settles O13: `Engine.finish`, its counter and its padding written out. -/
theorem finalProducesTheDigest : Obligations.FinalProducesTheDigest := by
  intro s hb
  refine ⟨fun ha _ => ?_, fun hna => ?_⟩
  · intro e bs t
    have ht : advanceCounter e.variant e.t e.buf.length = t := by
      rw [advanceCounter_eq_ofNat]
      cases hv : e.variant <;> simp [t, hv, Variant.wordBits]
    rw [exec_of_execEffect (execEffect_final hb ha), ← ht]
    rfl
  · exact exec_of_check (check := finalCheck) rfl hb (by simp [finalCheck, hna]) (by decide)

/-- Settles O42: FINAL finds the buffer and the counter as INIT leaves them, empty and 0. -/
theorem emptyInputHasADigest : Obligations.EmptyInputHasADigest := by
  intro s v nn hb h1 h2
  have ht : advanceCounter v 0#128 0 = 0#128 := by cases v <;> decide
  have hinit := exec_of_execEffect (s := s) (execEffect_init h1 h2 hb)
  have hfinal := exec_of_execEffect (s := { s with engine := s.engine.create v nn }) (execEffect_final hb rfl)
  refine ⟨_, _, hinit, hfinal, rfl, rfl, ht, ?_⟩
  rw [Engine.finish_h, Engine.finish_t, Engine.create_t, Engine.create_buf, Engine.create_variant, List.length_nil, ht]
  rfl

/-! ### What the commands leave unchanged (R58, R140) -/

/-- What holds of every recorded error and of the effect of a command that passes its check holds of the command. -/
theorem Engine.command_induction {P : Engine → Prop} {check : Engine → ErrCode} {effect : Engine → Engine} {e : Engine}
    (hraise : ∀ k, P (e.raise k)) (heffect : P (effect e)) : P (Engine.command check effect e) := by
  obtain ⟨-, -, h⟩ | ⟨k, -, h⟩ := Engine.command_cases check effect e
  · rw [h]; exact heffect
  · rw [h]; exact hraise k

/-- DIN and BUSY are as before. -/
def Engine.KeepsDinBusy (e e' : Engine) : Prop := e'.din = e.din ∧ e'.busy = e.busy

theorem Engine.raise_keepsDinBusy (e : Engine) (k : ErrCode) : e.KeepsDinBusy (e.raise k) :=
  ⟨Engine.raise_din k e, Engine.raise_busy k e⟩

/-- Every command keeps the latch and BUSY (R12, R32, R33). -/
theorem execEffect_keepsDinBusy (i : Instr) (e : Engine) : e.KeepsDinBusy (execEffect i e) := by
  cases i with
  | init v N => exact Engine.command_induction e.raise_keepsDinBusy ⟨rfl, rfl⟩
  | update n =>
    obtain ⟨-, -, -, -, hbusy, hdin, -⟩ := Engine.absorb_spec (dinBytes n e.din) e
    exact Engine.command_induction e.raise_keepsDinBusy ⟨hdin, hbusy⟩
  | final => exact Engine.command_induction e.raise_keepsDinBusy ⟨rfl, rfl⟩

/-- VARIANT and OUTLEN are as before, and so is ERR if it was nonzero. -/
def Engine.KeepsParameters (e e' : Engine) : Prop :=
  e'.variant = e.variant ∧ e'.outlen = e.outlen ∧ (e.err ≠ .none → e'.err = e.err)

theorem Engine.raise_keepsParameters (e : Engine) (k : ErrCode) : e.KeepsParameters (e.raise k) :=
  ⟨Engine.raise_variant k e, Engine.raise_outlen k e, fun h => by rw [Engine.raise_err, if_neg h]⟩

/-- UPDATE and FINAL keep the parameters that INIT sets (R143, R144, R186). -/
theorem execEffect_keepsParameters {i : Instr} (hi : ∀ v N, i ≠ .init v N) (e : Engine) :
    e.KeepsParameters (execEffect i e) := by
  cases i with
  | init v N => exact absurd rfl (hi v N)
  | update n =>
    obtain ⟨-, hvariant, houtlen, herr, -⟩ := Engine.absorb_spec (dinBytes n e.din) e
    exact Engine.command_induction e.raise_keepsParameters ⟨hvariant, houtlen, fun _ => herr⟩
  | final => exact Engine.command_induction e.raise_keepsParameters ⟨rfl, rfl, fun _ => rfl⟩

/-- UPDATE keeps the phase (R29, R143). -/
theorem execEffect_update_phase (n : Nat) (e : Engine) : (execEffect (.update n) e).phase = e.phase :=
  Engine.command_induction (P := fun e' => e'.phase = e.phase) (Engine.raise_phase · e) (Engine.absorb_spec _ e).1

/-- Settles O14: a command changes the instance in `engine` alone, by `execEffect`. -/
theorem commandsKeepTheRest : Obligations.CommandsKeepTheRest := by
  intro i s s' h
  rw [exec_eq] at h
  cases h
  obtain ⟨hdin, hbusy⟩ := execEffect_keepsDinBusy i s.engine
  refine ⟨rfl, rfl, rfl, rfl, rfl, hdin, hbusy, fun hi => execEffect_keepsParameters hi s.engine, ?_⟩
  rintro ⟨n, rfl⟩
  exact execEffect_update_phase n s.engine

end Sys2Proof.Machine
end

section
/-! SUPPORT. What only some events can change: DIN (R33, R148), and the digest of a context in FINALIZED (R154), which is the
first `nn` bytes of the serialised chaining value (R39, R153). -/

namespace Sys2Proof.Machine

/-- A write that a step performs is 64 bits wide (R52). -/
theorem width_of_step_write {s s' : State} {rest : List HostEvent} {k : Nat} {off : BitVec 7} {width : AccessWidth}
    {x : Word64} (hr : s.requests = .write k off width x :: rest) (h : step s = .next s') : width = .w64 := by
  by_contra hw
  obtain ⟨e, he, -⟩ := step_next hr h
  obtain ⟨hk, -⟩ := List.getElem?_eq_some_iff.mp he
  rw [(undefinedAccessesAreRefused s rest k off width x hk (.inl hw)).2 hr] at h
  cases h

/-- A write to a register other than CMD and DIN is ignored (R53). -/
theorem Engine.writeReg_of_ne_din {r : Reg} (h : r ≠ .din) (x : Word64) (e : Engine) : e.writeReg x r = e := by
  cases r
  case din => exact absurd rfl h
  all_goals rfl

/-! ### DIN -/

/-- A CMD write of any word keeps the latch (R33, R148). -/
theorem commandEffect_din (c : Word64) (e : Engine) : (commandEffect c e).din = e.din := by
  unfold commandEffect
  split
  · next i _ => exact (execEffect_keepsDinBusy i e).1
  · split <;> exact Engine.raise_din _ e

/-- An event that changes the latch of its instance is the instance's reset or its DIN write. -/
theorem eventEffect_din_ne {ev : HostEvent} {e : Engine} (h : (eventEffect ev e).din ≠ e.din) :
    ev = .reset ev.target ∨ ∃ width x, ev = .write ev.target 0x08#7 width x := by
  cases ev with
  | reset k => exact .inl rfl
  | read k off width => exact absurd rfl h
  | write k off width x =>
    rw [eventEffect] at h
    split at h
    · exact absurd (commandEffect_din x e) h
    · by_cases hdin : regAt off = .din
      · exact .inr ⟨width, x, by rw [(regAt_eq_din off).mp hdin]; rfl⟩
      · exact absurd (congrArg Engine.din (Engine.writeReg_of_ne_din hdin x e)) h

/-- The DIN write to the instance in `engine` (R148). -/
theorem hostWrite_din (x : Word64) (s : State) : hostWrite 0x08#7 x s = .next (s.onEngine (Engine.writeDin x)) := by
  have hdin : regAt 0x08#7 = .din := (regAt_eq_din _).mpr rfl
  rw [hostWrite_eq, perform, if_pos (accessDefined_w64 (by decide)), hdin, if_neg (by decide)]
  rfl

/-- Settles O25: the two cases of `Engine.writeDin`, and `eventEffect_din_ne` for every step. -/
theorem dinIsSetByItsWriteAlone : Obligations.DinIsSetByItsWriteAlone := by
  refine ⟨fun s x => ?_, fun s s' ev rest k e e' hr hstep he he' hne => ?_⟩
  · rw [hostWrite_din, State.onEngine, Engine.writeDin]
    split
    · rw [← State.onEngine_raise, State.onEngine]
    · rfl
  · rw [step_next_at hr hstep he he'] at hne
    split at hne
    · next hk =>
      obtain hreset | ⟨width, x, hwrite⟩ := eventEffect_din_ne hne
      · exact .inl (hk ▸ hreset)
      · obtain rfl : width = .w64 := width_of_step_write (hwrite ▸ hr) hstep
        exact .inr ⟨x, hk ▸ hwrite⟩
    · exact absurd rfl hne

/-! ### The digest in FINALIZED (R153, R154) -/

/-- All that DOUT reads is as before. -/
def Engine.KeepsDigest (e e' : Engine) : Prop :=
  e'.h = e.h ∧ e'.outlen = e.outlen ∧ e'.variant = e.variant ∧ e'.phase = e.phase

theorem Engine.KeepsDigest.refl (e : Engine) : e.KeepsDigest e := ⟨rfl, rfl, rfl, rfl⟩

theorem Engine.raise_keepsDigest (e : Engine) (k : ErrCode) : e.KeepsDigest (e.raise k) :=
  ⟨Engine.raise_h k e, Engine.raise_outlen k e, Engine.raise_variant k e, Engine.raise_phase k e⟩

theorem Engine.writeReg_keepsDigest (x : Word64) (e : Engine) (r : Reg) : e.KeepsDigest (e.writeReg x r) := by
  by_cases hr : r = .din
  · rw [hr, Engine.writeReg, Engine.writeDin]
    split
    · exact e.raise_keepsDigest _
    · exact .refl e
  · rw [Engine.writeReg_of_ne_din hr]
    exact .refl e

/-- DOUT reads the chaining value, OUTLEN, VARIANT and PHASE alone (R39). -/
theorem Engine.KeepsDigest.doutWord_eq {e e' : Engine} (h : e.KeepsDigest e') (j : Nat) :
    doutWord e' j = doutWord e j := by
  obtain ⟨hh, houtlen, hvariant, hphase⟩ := h
  simp only [doutWord, digestByte, chainBytes, hh, houtlen, hvariant, hphase]

/-- In FINALIZED a CMD write that is no successful INIT keeps the digest: UPDATE and FINAL fail there (R154). -/
theorem commandEffect_keepsDigest {c : Word64} {e : Engine} (hp : e.phase = .finalized)
    (hinit : ∀ v N, decode c = .command (.init v N) → commandError e c ≠ .none) :
    e.KeepsDigest (commandEffect c e) := by
  have hna : e.phase ≠ .active := by simp [hp]
  obtain ⟨hfail, hsucc⟩ := commandEffect_spec e c
  by_cases hc : commandError e c = .none
  · obtain ⟨-, ⟨v, N, hd, -⟩ | ⟨n, -, ha, -⟩ | ⟨-, ha, -⟩⟩ := hsucc hc
    · exact absurd hc (hinit v N hd)
    · exact absurd ha hna
    · exact absurd ha hna
  · rw [hfail hc]
    exact e.raise_keepsDigest _

/-- Settles O39: of the events that can change the digest, only reset and a successful INIT are left in FINALIZED. -/
theorem theDigestIsStable : Obligations.TheDigestIsStable := by
  intro s s' ev rest k e e' hr hstep he he' hp hreset hcreates
  suffices hkeep : e.KeepsDigest e' by
    have hdout := hkeep.doutWord_eq
    obtain ⟨hh, houtlen, hvariant, hphase⟩ := hkeep
    exact ⟨hh, houtlen, hvariant, hphase.trans hp, hdout⟩
  rw [step_next_at hr hstep he he']
  split
  · next hk =>
    subst hk
    cases ev with
    | reset k => exact absurd rfl hreset
    | read k off width => exact .refl e
    | write k off width x =>
      obtain rfl := width_of_step_write hr hstep
      rw [eventEffect]
      split
      · next hcmd =>
        obtain rfl := (regAt_eq_cmd off).mp hcmd
        exact commandEffect_keepsDigest hp fun v N hd hc => hcreates ⟨x, v, N, rfl, hd, hc⟩
      · exact e.writeReg_keepsDigest x _
  · exact .refl e

/-- The serialised chaining value has NN_MAX bytes (R7, R153). -/
theorem length_chainBytes (e : Engine) : (chainBytes e).length = e.variant.nnMax := by
  have hword (x : Word64) : (leBytes (e.variant.wordBits / 8) x).length = e.variant.wordBits / 8 := by simp [leBytes]
  rw [chainBytes, List.length_flatMap, funext hword, List.map_const', List.sum_replicate, Vector.length_toList]
  cases e.variant <;> rfl

/-- Settles O43: the bytes of the digest image below `nn`, listed, and nothing is cut off at NN_MAX. -/
theorem fullLengthDigestIsTheWholeChain : Obligations.FullLengthDigestIsTheWholeChain := by
  intro e hp hle
  have hlen := length_chainBytes e
  have htake : (List.range e.outlen.toNat).map (digestByte e) = (chainBytes e).take e.outlen.toNat := by
    refine List.ext_getElem (by simp [hlen, hle]) fun j hj hj' => ?_
    rw [List.getElem_map, List.getElem_range, digestByte_of_finalized hp, List.getD_eq_getElem _ _ hj']
  exact ⟨htake, fun hmax => by rw [htake, List.take_of_length_le (by omega)]⟩

end Sys2Proof.Machine
end

section
/-! SUPPORT. The host's side (R160, R162, R163): hexadecimal text, the conversion of a length in bits, and batches. -/

namespace Sys2Proof.Machine

/-! ### HEX (R160) -/

/-- The digit of a nibble in the alphabet of R160. -/
theorem hexDigit_eq (d : BitVec 4) : "0123456789abcdef".toList[d.toNat]? = some (hexDigit d) := by
  revert d
  decide

theorem hexDigit_high (b : Byte) : "0123456789abcdef".toList[b.toNat / 16]? = some (hexDigit (b.extractLsb' 4 4)) := by
  rw [← hexDigit_eq, BitVec.extractLsb'_toNat, Nat.shiftRight_eq_div_pow, Nat.mod_eq_of_lt (by omega)]

theorem hexDigit_low (b : Byte) : "0123456789abcdef".toList[b.toNat % 16]? = some (hexDigit (b.extractLsb' 0 4)) := by
  rw [← hexDigit_eq, BitVec.extractLsb'_toNat, Nat.shiftRight_zero]

theorem hexChars_cons (b : Byte) (D : List Byte) :
    hexChars (b :: D) = hexDigit (b.extractLsb' 4 4) :: hexDigit (b.extractLsb' 0 4) :: hexChars D := rfl

theorem length_hexChars (D : List Byte) : (hexChars D).length = 2 * D.length := by
  induction D with
  | nil => rfl
  | cons b D ih => rw [hexChars_cons, List.length_cons, List.length_cons, List.length_cons, ih]; omega

/-- The two characters of byte `i` (R160). -/
theorem hexChars_getElem? {D : List Byte} {i : Nat} {b : Byte} (h : D[i]? = some b) :
    (hexChars D)[2 * i]? = some (hexDigit (b.extractLsb' 4 4)) ∧
    (hexChars D)[2 * i + 1]? = some (hexDigit (b.extractLsb' 0 4)) := by
  induction D generalizing i with
  | nil => cases h
  | cons d D ih =>
    cases i with
    | zero => cases h; exact ⟨rfl, rfl⟩
    | succ i => exact ih h

/-- Settles O47: the digits at the two nibbles of a byte are the characters that HEX writes for it. -/
theorem hexIsTwoLowerCaseDigitsPerByte : Obligations.HexIsTwoLowerCaseDigitsPerByte := by
  refine fun D => ⟨length_hexChars D, fun i b hb => ?_⟩
  rw [hexDigit_high, hexDigit_low]
  exact hexChars_getElem? hb

/-! ### Batches (R163) -/

/-- A batch whose remembered digests are those of their paths gives the digests in input order. -/
theorem digestBatch_eq_mapM {Path Digest : Type} [DecidableEq Path] {f : Path → Option Digest} (ps : List Path) :
    ∀ seen : List (Path × Digest), (∀ e ∈ seen, f e.1 = some e.2) → digestBatch f seen ps = ps.mapM f := by
  induction ps with
  | nil => intro seen _; rfl
  | cons p ps ih =>
    intro seen hseen
    rw [digestBatch, List.mapM_cons]
    split
    · next d hfound =>
      obtain ⟨e, hfind, rfl⟩ := Option.map_eq_some_iff.mp hfound
      have hp : e.1 = p := by simpa using List.find?_some hfind
      have hd : f p = some e.2 := hp ▸ hseen e (List.mem_of_find?_eq_some hfind)
      rw [ih seen hseen, hd]
      cases ps.mapM f <;> rfl
    · split
      · next hd => rw [hd]; rfl
      · next d hd =>
        rw [ih ((p, d) :: seen) (List.forall_mem_cons.mpr ⟨hd, hseen⟩), hd]
        cases ps.mapM f <;> rfl

/-- Settles O48: a batch begins with no digest remembered. -/
theorem batchesReportInInputOrder : Obligations.BatchesReportInInputOrder :=
  fun _ ps => digestBatch_eq_mapM ps [] (List.forall_mem_nil _)

/-! ### Variant names and lengths (R162) -/

/-- The two names, if they differ, are those of their variants. -/
theorem variantOfName_self {names : Variant → String} (h : names .blake2b ≠ names .blake2s) (v : Variant) :
    variantOfName names (names v) = some v := by
  cases v with
  | blake2b => exact if_pos rfl
  | blake2s => rw [variantOfName, if_neg h.symm, if_pos rfl]

theorem variantOfName_of_ne {names : Variant → String} {name : String} (h : ∀ v, name ≠ names v) :
    variantOfName names name = none := by
  rw [variantOfName, if_neg (h _), if_neg (h _)]

theorem outlenOfBits_of_not_dvd {bits : Nat} (h : bits % 8 ≠ 0) (v : Variant) : outlenOfBits v bits = none := by
  rw [outlenOfBits, if_neg (by omega), if_pos h]

theorem outlenOfBits_of_bytes {n : Nat} (h1 : 1 ≤ n) (h2 : n ≤ 127) (v : Variant) :
    outlenOfBits v (8 * n) = some n := by
  rw [outlenOfBits, if_neg (by omega), if_neg (by omega), if_pos (by omega), Nat.mul_div_cancel_left n (by decide)]

theorem outlenOfBits_of_too_long {bits : Nat} (h : 127 * 8 < bits) (v : Variant) : outlenOfBits v bits = none := by
  rw [outlenOfBits, if_neg (by omega)]
  split
  · rfl
  · rw [if_neg (by omega)]

/-- A length that the host converts fits the field OUTLEN (R72, R162). -/
theorem outlenOfBits_lt {v : Variant} {bits n : Nat} (h : outlenOfBits v bits = some n) : n < 128 := by
  have hmax := Variant.nnMax_le v
  unfold outlenOfBits at h
  split_ifs at h <;> cases h <;> omega

/-- Settles O46: the name selects the variant, and `outlenOfBits` converts the length or has none. -/
theorem theHostConvertsBitsToBytes : Obligations.TheHostConvertsBitsToBytes := by
  refine ⟨fun names bits hne => ⟨fun v => ?_, fun name => ⟨fun hname => ?_, fun i hi => ?_⟩⟩, fun v bits =>
    ⟨fun h => ?_, fun h => outlenOfBits_of_not_dvd h v, ?_, fun h => outlenOfBits_of_too_long h v⟩⟩
  · rw [hostCreate, variantOfName_self hne, Option.bind_some]
  · rw [hostCreate, variantOfName_of_ne hname, Option.bind_none]
  · obtain ⟨v, -, hmap⟩ := Option.bind_eq_some_iff.mp hi
    obtain ⟨n, hn, rfl⟩ := Option.map_eq_some_iff.mp hmap
    exact decide_eq_true (outlenOfBits_lt hn)
  · rw [outlenOfBits, if_pos h]
    cases v <;> rfl
  · rintro n h1 h2 rfl
    exact outlenOfBits_of_bytes h1 h2 v

end Sys2Proof.Machine
end

section
/-! SUPPORT. Errors (R180 to R190): which one a CMD write records, what recording it leaves unchanged, and what clears ERR. -/

namespace Sys2Proof.Machine

/-! ### The error a CMD write records (R188, R190) -/

/-- The CMD write to the instance in `engine` (R140). -/
theorem hostWrite_cmd (c : Word64) (s : State) : hostWrite 0x00#7 c s = .next (s.onEngine (commandEffect c)) := by
  rw [hostWrite_eq, perform_write_cmd, commandWrite_eq]

/-- A change of the instance in `engine` that records an error there and does nothing else. -/
theorem State.onEngine_eq_recorded {f : Engine → Engine} {s : State} {k : ErrCode}
    (h : f s.engine = s.engine.raise k) : s.onEngine f = s.recorded k := by
  rw [← State.onEngine_raise, State.onEngine, h, State.onEngine]

/-- A CMD write to which an error applies records it and does nothing else (R185, R186). -/
theorem hostWrite_cmd_of_commandError {c : Word64} {s : State} {k : ErrCode} (h : commandError s.engine c = k)
    (hk : k ≠ .none) : hostWrite 0x00#7 c s = .next (s.recorded k) := by
  subst h
  rw [hostWrite_cmd, State.onEngine_eq_recorded ((commandEffect_spec s.engine c).1 hk)]

theorem commandError_of_busy {e : Engine} (hb : e.busy = true) (c : Word64) : commandError e c = .busyViolation := by
  rw [commandError, if_pos hb]

theorem commandError_of_init {e : Engine} {c : Word64} {v : Variant} {N : Nat} (hb : e.busy = false)
    (hd : decode c = .command (.init v N)) :
    commandError e c = if N = 0 ∨ v.nnMax < N then .invalidParameter else .none := by
  simp [commandError, hb, hd]

theorem commandError_of_update {e : Engine} {c : Word64} {n : Nat} (hb : e.busy = false)
    (hd : decode c = .command (.update n)) : commandError e c =
      if e.phase ≠ .active then .invalidState else if 8 < n then .invalidParameter else .none := by
  simp [commandError, hb, hd]

theorem commandError_of_final {e : Engine} {c : Word64} (hb : e.busy = false) (hd : decode c = .command .final) :
    commandError e c = if e.phase ≠ .active then .invalidState else .none := by
  simp [commandError, hb, hd]

/-- Settles O15: under the hypotheses of each clause `commandError` is the error of that clause. -/
theorem theFirstErrorInOrderIsRaised : Obligations.TheFirstErrorInOrderIsRaised := by
  intro s c
  refine ⟨fun hb => ?_, fun hb hill => ?_, fun hb _ hbad => ?_, fun hb _ hgood hop => ?_⟩
  · exact hostWrite_cmd_of_commandError (commandError_of_busy hb c) (by decide)
  · obtain ⟨r, hd⟩ := hill
    exact hostWrite_illegal hd hb
  · refine hostWrite_cmd_of_commandError ?_ (by decide)
    obtain ⟨⟨n, hd⟩ | hd, hphase⟩ := hbad
    · rw [commandError_of_update hb hd, if_pos hphase]
    · rw [commandError_of_final hb hd, if_pos hphase]
  · refine hostWrite_cmd_of_commandError ?_ (by decide)
    obtain ⟨v, N, hd, hN⟩ | ⟨n, hd, hn⟩ := hop
    · rw [commandError_of_init hb hd, if_pos hN]
    · have hactive : ¬ s.engine.phase ≠ .active := fun hphase => hgood ⟨.inl ⟨n, hd⟩, hphase⟩
      rw [commandError_of_update hb hd, if_neg hactive, if_pos hn]

/-- A DIN write while BUSY = 1 only records BUSY_VIOLATION (R148, R190). -/
theorem Engine.writeDin_of_busy {e : Engine} (hb : e.busy = true) (x : Word64) :
    e.writeDin x = e.raise .busyViolation := by
  rw [Engine.writeDin, if_pos hb]

/-- Settles O18: BUSY is the first check of both writes. -/
theorem writesWhileBusyAreDiscarded : Obligations.WritesWhileBusyAreDiscarded := by
  intro s x hb
  refine ⟨hostWrite_cmd_of_commandError (commandError_of_busy hb x) (by decide), ?_⟩
  rw [hostWrite_din, State.onEngine_eq_recorded (Engine.writeDin_of_busy hb x)]

/-! ### ERR blocks no command (R186) -/

/-- ERR set to `k`. -/
def Engine.setErr (k : ErrCode) (e : Engine) : Engine := { e with err := k }

/-- Of two settings of ERR the last holds. -/
theorem Engine.setErr_setErr (k k' : ErrCode) (e : Engine) : (e.setErr k).setErr k' = e.setErr k' := rfl

/-- Setting ERR hides which error was recorded before. -/
theorem Engine.setErr_raise (k k' : ErrCode) (e : Engine) : (e.raise k).setErr k' = e.setErr k' := by
  rw [Engine.raise_eq]; rfl

/-- A change that UPDATE's loop neither reads nor makes can be made before or after it. -/
theorem Engine.drain_comm {f : Engine → Engine} (hbuf : ∀ e, (f e).buf = e.buf)
    (hsize : ∀ e, (f e).blockBytes = e.blockBytes) (hstep : ∀ e, (f e).compressOldest = f e.compressOldest) (n : Nat) :
    ∀ e : Engine, Engine.drain n (f e) = f (Engine.drain n e) := by
  induction n with
  | zero => exact fun e => rfl
  | succ n ih =>
    intro e
    rw [Engine.drain, Engine.drain, hbuf, hsize, hstep]
    split
    · exact ih _
    · rfl

theorem Engine.absorb_setErr (k : ErrCode) (bytes : List Byte) (e : Engine) :
    (e.setErr k).absorb bytes = (e.absorb bytes).setErr k :=
  Engine.drain_comm (f := Engine.setErr k) (fun _ => rfl) (fun _ => rfl) (fun _ => rfl) _ (e.append bytes)

/-- A command whose check and effect do not depend on ERR does the same to everything else whatever ERR holds. -/
theorem Engine.command_setErr {check : Engine → ErrCode} {effect : Engine → Engine} {e : Engine} {k : ErrCode}
    (hcheck : check (e.setErr k) = check e)
    (heffect : (effect (e.setErr k)).setErr .none = (effect e).setErr .none) :
    (Engine.command check effect (e.setErr k)).setErr .none = (Engine.command check effect e).setErr .none := by
  have hbusy : (e.setErr k).busy = e.busy := rfl
  simp only [Engine.command, hbusy, hcheck]
  split_ifs
  · simp only [Engine.setErr_raise, Engine.setErr_setErr]
  · exact heffect
  · simp only [Engine.setErr_raise, Engine.setErr_setErr]

/-- What a command does to everything but ERR does not depend on ERR (R186). -/
theorem execEffect_setErr (i : Instr) (k : ErrCode) (e : Engine) :
    (execEffect i (e.setErr k)).setErr .none = (execEffect i e).setErr .none := by
  cases i with
  | init v N => exact Engine.command_setErr rfl rfl
  | update n =>
    refine Engine.command_setErr rfl ?_
    rw [Engine.absorb_setErr, Engine.setErr_setErr]
  | final => exact Engine.command_setErr rfl rfl

/-- Recording an error where ERR is nonzero changes nothing (R186). -/
theorem State.recorded_of_err_ne {s : State} (h : s.engine.err ≠ .none) (k : ErrCode) : s.recorded k = s := by
  rw [State.recorded, if_neg h]

/-- Settles O16: `State.recorded` changes ERR alone, and `execEffect_setErr` for the commands. -/
theorem errorsAreStickyAndBlockNothing : Obligations.ErrorsAreStickyAndBlockNothing := by
  refine ⟨fun s c hc => ?_, fun i s k => ?_⟩
  · refine ⟨s.recorded (commandError s.engine c), hostWrite_cmd_of_commandError rfl hc, fun hnone => ?_,
      fun hne => State.recorded_of_err_ne hne _, rfl⟩
    exact if_pos hnone
  · refine ⟨_, _, exec_eq i s, exec_eq i _, ?_⟩
    exact congrArg (fun e => { s with engine := e }) (execEffect_setErr i k s.engine).symm

/-! ### What clears ERR (R187) -/

/-- Recording an error never leaves ERR clear where it was nonzero. -/
theorem Engine.raise_err_of_ne {e : Engine} (h : e.err ≠ .none) (k : ErrCode) : (e.raise k).err = e.err := by
  rw [Engine.raise_err, if_neg h]

theorem Engine.writeReg_err_of_ne {e : Engine} (h : e.err ≠ .none) (x : Word64) (r : Reg) :
    (e.writeReg x r).err = e.err := by
  by_cases hr : r = .din
  · rw [hr, Engine.writeReg, Engine.writeDin]
    split
    · exact Engine.raise_err_of_ne h _
    · rfl
  · rw [Engine.writeReg_of_ne_din hr]

/-- A CMD write that clears ERR is that of a successful INIT. -/
theorem init_of_commandEffect_clears_err {c : Word64} {e : Engine} (h : e.err ≠ .none)
    (hclear : (commandEffect c e).err = .none) :
    commandError e c = .none ∧ ∃ v N, decode c = .command (.init v N) := by
  obtain ⟨hfail, hsucc⟩ := commandEffect_spec e c
  by_cases hc : commandError e c = .none
  · obtain ⟨-, ⟨v, N, hd, -⟩ | ⟨n, -, -, -, heq⟩ | ⟨-, -, heq⟩⟩ := hsucc hc
    · exact ⟨hc, v, N, hd⟩
    · obtain ⟨-, -, -, herr, -⟩ := Engine.absorb_spec (dinBytes n e.din) e
      rw [heq, herr] at hclear
      exact absurd hclear h
    · rw [heq, Engine.finish_err] at hclear
      exact absurd hclear h
  · rw [hfail hc, Engine.raise_err_of_ne h] at hclear
    exact absurd hclear h

/-- An event that clears the ERR of its instance is the instance's reset or the CMD write of a successful INIT. -/
theorem eventEffect_clears_err {ev : HostEvent} {e : Engine} (h : e.err ≠ .none)
    (hclear : (eventEffect ev e).err = .none) : ev = .reset ev.target ∨ ∃ width c v N,
      ev = .write ev.target 0x00#7 width c ∧ decode c = .command (.init v N) ∧ commandError e c = .none := by
  cases ev with
  | reset k => exact .inl rfl
  | read k off width => exact absurd hclear h
  | write k off width x =>
    rw [eventEffect] at hclear
    split at hclear
    · next hcmd =>
      obtain rfl := (regAt_eq_cmd off).mp hcmd
      obtain ⟨hc, v, N, hd⟩ := init_of_commandEffect_clears_err h hclear
      exact .inr ⟨width, x, v, N, rfl, hd, hc⟩
    · rw [Engine.writeReg_err_of_ne h] at hclear
      exact absurd hclear h

/-- Settles O17: `Engine.create` and `Engine.reset` have ERR clear, and `eventEffect_clears_err` for every step. -/
theorem errIsClearedByInitAndResetAlone : Obligations.ErrIsClearedByInitAndResetAlone := by
  refine ⟨fun s v N s' hb h1 h2 hexec => ?_, fun s => ?_, fun s s' ev rest k e e' hr hstep he he' hne hclear => ?_⟩
  · rw [exec_of_execEffect (execEffect_init h1 h2 hb)] at hexec
    cases hexec
    exact Engine.create_err v N s.engine
  · exact ⟨s.onEngine fun _ => Engine.reset, step_withEvent rfl, rfl⟩
  · rw [step_next_at hr hstep he he'] at hclear
    split at hclear
    · next hk =>
      subst hk
      obtain hreset | ⟨width, c, v, N, hwrite, hd, hc⟩ := eventEffect_clears_err hne hclear
      · exact .inl hreset
      · obtain rfl : width = .w64 := width_of_step_write (hwrite ▸ hr) hstep
        exact .inr ⟨c, v, N, hwrite, hd, hc⟩
    · exact absurd hclear hne

end Sys2Proof.Machine
end

section
/-! SUPPORT. Completion of every CMD write (R222), and the registers while BUSY = 1 (R216). -/

namespace Sys2Proof.Machine

/-! ### Every CMD write completes (R222) -/

/-- A word to whose CMD write no error of R188 applies is a legal command word. -/
theorem exists_command_of_commandError_none {e : Engine} {c : Word64} (h : commandError e c = .none) :
    ∃ i, decode c = .command i := by
  obtain ⟨-, ⟨v, N, hd, -⟩ | ⟨n, hd, -⟩ | ⟨hd, -⟩⟩ := (commandEffect_spec e c).2 h
  · exact ⟨.init v N, hd⟩
  · exact ⟨.update n, hd⟩
  · exact ⟨.final, hd⟩

/-- The CMD write of a legal word to the instance in `engine` runs its command (R140). -/
theorem hostWrite_cmd_of_decode {c : Word64} {i : Instr} (h : decode c = .command i) (s : State) :
    hostWrite 0x00#7 c s = exec i s := by
  rw [hostWrite_eq, perform_write_cmd, commandWrite_of_decode h]

/-- Settles O10: the next state is that of the decoded command, or the state with the error recorded. -/
theorem everyCommandWriteCompletes : Obligations.EveryCommandWriteCompletes := by
  intro s c
  by_cases hc : commandError s.engine c = .none
  · obtain ⟨i, hd⟩ := exists_command_of_commandError_none hc
    have hexec := exec_eq i s
    obtain ⟨-, hbusy⟩ := execEffect_keepsDinBusy i s.engine
    exact ⟨s.onEngine (execEffect i), (hostWrite_cmd_of_decode hd s).trans hexec, hbusy, absurd hc,
      fun _ => ⟨i, hd, hexec⟩⟩
  · exact ⟨s.recorded (commandError s.engine c), hostWrite_cmd_of_commandError rfl hc, rfl, fun _ => rfl,
      fun h => absurd h hc⟩

/-! ### Reads while BUSY = 1 (R216) -/

/-- While BUSY = 1 a read of a register that R216 leaves open uses the next free value and changes no instance. -/
theorem hostRead_of_busy {off : BitVec 7} (hal : off.toNat % 8 = 0) {s : State} (hb : s.engine.busy = true)
    (hopen : (regAt off).openWhileBusy = true) : hostRead off s = .next { s with
      replies := s.replies ++ [busyValue (regAt off) (Config.freeRead s.draws)], draws := s.draws + 1 } := by
  rw [hostRead_of_aligned hal, State.performRead, if_pos ⟨hb, hopen⟩]
  rfl

/-- STATUS reads 1 in bit 3, and the free value in every other bit. -/
theorem busyValue_status_getLsbD (x : Word64) (i : Nat) :
    (busyValue .status x).getLsbD i = (x.getLsbD i || decide (i = 3)) := by
  have hmask : 0x8#64 = BitVec.twoPow 64 3 := rfl
  rw [busyValue, if_pos rfl, BitVec.getLsbD_or, hmask, BitVec.getLsbD_twoPow]
  simp [eq_comm]

theorem busyValue_of_ne_status {r : Reg} (h : r ≠ .status) (x : Word64) : busyValue r x = x := if_neg h

/-- The offsets of T0, T1 and DOUT0 to DOUT7 (R51): aligned, open while BUSY = 1, and not STATUS. -/
theorem openWhileBusy_of_mem :
    ∀ off ∈ [0x20#7, 0x28#7, 0x40#7, 0x48#7, 0x50#7, 0x58#7, 0x60#7, 0x68#7, 0x70#7, 0x78#7],
      off.toNat % 8 = 0 ∧ (regAt off).openWhileBusy = true ∧ regAt off ≠ .status := by
  decide

/-- Settles O24: `busyValue` sets bit 3 of STATUS and leaves the other registers the free value. -/
theorem readsWhileBusyAreFree : Obligations.ReadsWhileBusyAreFree := by
  intro s hb
  refine ⟨⟨busyValue .status (Config.freeRead s.draws), hostRead_of_busy (by decide) hb (by decide), ?_,
    fun i hi => ?_⟩, fun off hoff => ?_⟩
  · simp [busyValue_status_getLsbD]
  · simp [busyValue_status_getLsbD, hi]
  · obtain ⟨hal, hopen, hne⟩ := openWhileBusy_of_mem off hoff
    rw [hostRead_of_busy hal hb hopen, busyValue_of_ne_status hne]

end Sys2Proof.Machine
end
